-- ==== Sys2Proof/Word.lean ====
section
/-! DEFINITION. The word types of the core: bytes, 32-bit words, and the fixed-length byte sequences of
spec/00_scope.md R9 and R11 (a block is exactly 16 bytes, by construction: spec/90_conflicts.md C8). -/

namespace Sys2Proof

/-- A byte, which is also a field element (R11, R100). -/
abbrev Byte := BitVec 8

/-- A 32-bit register or command word (R26 to R28, R80). -/
abbrev Word := BitVec 32

/-- A block: exactly 16 bytes, element 0 first (R11). -/
abbrev Block := Vector Byte 16

/-- A master key: exactly 32 bytes (R18). -/
abbrev MasterKey := Vector Byte 32

/-- A synchronisation value: exactly 8 bytes (R9). -/
abbrev Sync := Vector Byte 8

/-- A MAC tag: exactly 8 bytes (R9). -/
abbrev Tag := Vector Byte 8

/-- The round-constant file `RC[0..31]` (R21). -/
abbrev RoundConstants := Vector Block 32

/-- The round-key file `RK[0..9]` (R22). -/
abbrev RoundKeys := Vector Block 10

end Sys2Proof
end

