-- ==== Sys2Proof/Syntax.lean ====
section
/-! DEFINITION. The fifteen commands of the core, one constructor per row of spec/opcode_table.json
(spec/30_encoding.md R83). Only GFMUL carries operands in its word (R82). -/

namespace Sys2Proof

/-- A decoded command (R83), in the order of the opcode map. -/
inductive Instr where
  /-- GFMUL a, b: field product of two immediate bytes (R102). -/
  | gfmul (a b : Byte)
  /-- LFOLD: the linear form of the block in `A` (R124). -/
  | lfold
  /-- ILFOLD: the inverse linear form of the block in `A` (R125). -/
  | ilfold
  /-- LFWD: the linear transform of the block in `A` (R126). -/
  | lfwd
  /-- LINV: the inverse linear transform of the block in `A` (R127). -/
  | linv
  /-- SUB: the substitution of the block in `A` (R113). -/
  | sub
  /-- ISUB: the inverse substitution of the block in `A` (R114). -/
  | isub
  /-- INIT: generate the round constants (R142). -/
  | init
  /-- DERIVE: derive the round keys from the master key in `A` (R146). -/
  | derive
  /-- ENC: encrypt the block in `A` (R164). -/
  | enc
  /-- DEC: decrypt the block in `A` (R165). -/
  | dec
  /-- GAMMA: gamma-mode transform of the data in `A` under the sync in `B` (R173). -/
  | gamma
  /-- ADDBE: big-endian sum of `A` and `B` (R177). -/
  | addbe
  /-- SUBKEY: the finalization subkey (R193). -/
  | subkey
  /-- TAG: the MAC tag of the message in `A` (R194). -/
  | tag
deriving DecidableEq, Repr

end Sys2Proof
end

