-- ==== Sys2Proof/Decode.lean ====
section
/-! DEFINITION. Decoding a command word (spec/30_encoding.md R81), total on all 2^32 words, rejecting by name; the encoder
(R80, R83); and the row words of spec/opcode_table.json. A command word is one 32-bit value, "not a byte sequence, so it has
no byte order" (spec/20_memory.md R54). -/

namespace Sys2Proof

/-- Why a word is no command (R81, R84). -/
inductive DecodeError where
  /-- Bits 31:24 are none of the fifteen opcodes. -/
  | unknownOpcode (op : Byte)
  /-- A bit of the reserved `zero` field is set. -/
  | zeroFieldSet
deriving DecidableEq, Repr

/-- Bits 31:24 of a command word, the `opcode` field of both formats (R80). -/
def opcodeField (w : Word) : Byte := w.extractLsb' 24 8

/-- Format Z: bits 23:0 must be 0 (R80, R81 step 4). -/
def decodeZ (w : Word) (i : Instr) : Except DecodeError Instr :=
  if w.extractLsb' 0 24 = 0#24 then .ok i else .error .zeroFieldSet

/-- Format M: bits 23:16 must be 0, `a` is bits 15:8, `b` is bits 7:0 (R80, R81 step 3). -/
def decodeM (w : Word) : Except DecodeError Instr :=
  if w.extractLsb' 16 8 = 0#8 then .ok (.gfmul (w.extractLsb' 8 8) (w.extractLsb' 0 8)) else .error .zeroFieldSet

/-- The command a word decodes to, or why it is illegal (R81). Reads no state. -/
def decode (w : Word) : Except DecodeError Instr :=
  if opcodeField w = 0x01#8 then decodeM w
  else if opcodeField w = 0x02#8 then decodeZ w .lfold
  else if opcodeField w = 0x03#8 then decodeZ w .ilfold
  else if opcodeField w = 0x04#8 then decodeZ w .lfwd
  else if opcodeField w = 0x05#8 then decodeZ w .linv
  else if opcodeField w = 0x06#8 then decodeZ w .sub
  else if opcodeField w = 0x07#8 then decodeZ w .isub
  else if opcodeField w = 0x08#8 then decodeZ w .init
  else if opcodeField w = 0x09#8 then decodeZ w .derive
  else if opcodeField w = 0x0A#8 then decodeZ w .enc
  else if opcodeField w = 0x0B#8 then decodeZ w .dec
  else if opcodeField w = 0x0C#8 then decodeZ w .gamma
  else if opcodeField w = 0x0D#8 then decodeZ w .addbe
  else if opcodeField w = 0x0E#8 then decodeZ w .subkey
  else if opcodeField w = 0x0F#8 then decodeZ w .tag
  else .error (.unknownOpcode (opcodeField w))

/-- The opcode of a command (R83). -/
def Instr.opcode : Instr → Byte
  | .gfmul _ _ => 0x01#8
  | .lfold => 0x02#8
  | .ilfold => 0x03#8
  | .lfwd => 0x04#8
  | .linv => 0x05#8
  | .sub => 0x06#8
  | .isub => 0x07#8
  | .init => 0x08#8
  | .derive => 0x09#8
  | .enc => 0x0A#8
  | .dec => 0x0B#8
  | .gamma => 0x0C#8
  | .addbe => 0x0D#8
  | .subkey => 0x0E#8
  | .tag => 0x0F#8

/-- A Format Z word: the opcode above 24 zero bits (R80). -/
def encodeZ (op : Byte) : Word := op ++ 0#24

/-- A Format M word: opcode, eight zero bits, `a`, `b` (R80). -/
def encodeM (op a b : Byte) : Word := op ++ 0#8 ++ a ++ b

/-- The word of a command (R80, R83). -/
def encode : Instr → Word
  | .gfmul a b => encodeM (Instr.gfmul a b).opcode a b
  | .lfold => encodeZ Instr.lfold.opcode
  | .ilfold => encodeZ Instr.ilfold.opcode
  | .lfwd => encodeZ Instr.lfwd.opcode
  | .linv => encodeZ Instr.linv.opcode
  | .sub => encodeZ Instr.sub.opcode
  | .isub => encodeZ Instr.isub.opcode
  | .init => encodeZ Instr.init.opcode
  | .derive => encodeZ Instr.derive.opcode
  | .enc => encodeZ Instr.enc.opcode
  | .dec => encodeZ Instr.dec.opcode
  | .gamma => encodeZ Instr.gamma.opcode
  | .addbe => encodeZ Instr.addbe.opcode
  | .subkey => encodeZ Instr.subkey.opcode
  | .tag => encodeZ Instr.tag.opcode

/-- The command word whose bits, in the opcode table's numbering, are the low `nbits` of `w` and zero above. Every row of the
table has 32 bits, and a command word is never longer (R85). -/
def tableWord (nbits w : Nat) : Word := BitVec.ofNat 32 (w % 2 ^ nbits)

/-- What the decoder reads from an instruction whose bits are `w` as spec/opcode_table.json numbers them. -/
def decodeTableWord (nbits w : Nat) : Option Instr := (decode (tableWord nbits w)).toOption

end Sys2Proof
end

