-- ==== Sys2Proof/Machine/Bytes.lean ====
section
/-! DEFINITION. The primitive functions on byte sequences of spec/00_scope.md R13: xor, rev, be, be_n. A sequence of fixed length
is a vector; it is built from a list of that length. -/

namespace Sys2Proof.Machine

/-- The fixed-length sequence with the elements of `l`. -/
def ofList {n : Nat} (l : List Byte) (h : l.length = n) : Vector Byte n := Vector.mk l.toArray (by simpa using h)

/-- The fixed-length sequence with the elements of `l`, when `l` has that length. -/
def ofList? (n : Nat) (l : List Byte) : Option (Vector Byte n) :=
  if h : l.length = n then some (ofList l h) else none

/-- `xor(s, t)` on blocks (R13). -/
def xorBlock (s t : Block) : Block := ofList (List.zipWith (· ^^^ ·) s.toList t.toList) (by simp)

/-- `rev(s)` on blocks (R13). -/
def rev (s : Block) : Block := ofList s.toList.reverse (by simp)

/-- `be(s)`: the sum over `i` of `s[i] * 256^(len(s)-1-i)` (R13). -/
def be : List Byte → Nat
  | [] => 0
  | x :: s => x.toNat * 256 ^ s.length + be s

/-- `be_n(v)`: the `n` bytes whose big-endian value is `v` (R13), for `v < 256^n` (log 27). -/
def beN : Nat → Nat → List Byte
  | 0, _ => []
  | n + 1, v => BitVec.ofNat 8 (v / 256 ^ n) :: beN n v

theorem beN_length (n v : Nat) : (beN n v).length = n := by
  induction n with
  | zero => rfl
  | succ n ih => simp [beN, ih]

/-- The bytes of a sequence of blocks, one after the other (R11's concatenation). -/
def blockBytes (l : List Block) : List Byte := l.flatMap fun x => x.toList

end Sys2Proof.Machine
end

