-- ==== Sys2Proof/Config.lean ====
section
/-! DEFINITION. What an implementation of the core fixes (BUF_MAX, spec/00_scope.md R10) and the free values (the contents
of RC and RK after reset, spec/10_state.md R36). Each rests on an opaque constant: no proof can see which value it has. -/

namespace Sys2Proof

/-- The free number behind `BUF_MAX` (log 6). -/
opaque Config.bufUnits : Nat

/-- `BUF_MAX`, the capacity in bytes of `A` and of `B`: OPEN, at least 512 and a multiple of 16 (R10).
DEDUCED (log 7): `OLEN` has 32 bits and reaches `BUF_MAX + 1` (R28), so `BUF_MAX` is at most 2^32 - 16.
As `Config.bufUnits` runs over the naturals this runs over exactly the values those bounds leave. -/
def Config.bufMax : Nat := 16 * (Config.bufUnits % 268435424) + 512

/-- What `RC[0..31]` hold after reset: the spec gives no value and says a model "must not choose zero" (R36): a value nothing can
see. DESIGN CHOICE (log 5). -/
opaque Config.resetRC : RoundConstants

/-- What `RK[0..9]` hold after reset: as for `RC` (R36). DESIGN CHOICE (log 5). -/
opaque Config.resetRK : RoundKeys

end Sys2Proof
end

