-- ==== Sys2Proof/Machine/State.lean ====
section
/-! DEFINITION. The state of the core (spec/10_state.md R20), and the core with its outside, as plain data, the reasons a step can stop, and the state after
reset (R36). The four ROMs are constants (Machine/Rom.lean); CMD holds no state (R27) and STATUS is a function of three
fields (Machine/Flags.lean). -/

namespace Sys2Proof.Machine

/-- The content of a buffer: the bytes that hold a value, each with its offset, offsets strictly rising (Memory.wf). An offset
that is not listed holds no value (R36, R50; log 8). -/
abbrev Memory := List Host.Cell

/-- The canonical form: offsets strictly rising. (An unlisted offset holds no value, so no entry can equal it.) -/
abbrev Memory.wf (m : Memory) : Prop := m.Pairwise fun c d => c.1 < d.1

/-- The result codes of the last command, the values of STATUS bits 2:0 (R26, R200). -/
inductive ErrCode where
  /-- 0: the command completed. -/
  | ok
  /-- 1: DERIVE with `ALEN != 32` (R201). -/
  | invalidKeyLength
  /-- 2: a single-block command with `ALEN != 16` (R202). -/
  | invalidBlockLength
  /-- 3: GAMMA or TAG with a wrong length (R203). -/
  | invalidInputLength
  /-- 4: DERIVE before INIT, or a key-using command before DERIVE (R204). -/
  | notReady
  /-- 5: a word that decodes to no command (R205). -/
  | illegalCommand
deriving DecidableEq, Repr

/-- The five actions of the host (spec/20_memory.md R58). None of them reads a length register: R58 says that the host cannot do what
it does not list, while R201 says in passing that "the host can read `ALEN`"; the model follows R58 (DESIGN CHOICE, log 30). -/
inductive HostAction where
  /-- `HostLoadA(s)`: replace the valid content of `A` by `s` (R59). -/
  | loadA (s : List Byte)
  /-- `HostLoadB(s)`: the same for `B` (R59). -/
  | loadB (s : List Byte)
  /-- `HostIssue(w)`: write `w` to CMD; the command runs to its end (R27). -/
  | issue (w : Word)
  /-- `HostReadO()`: returns `O[0..OLEN)` (R60). -/
  | readO
  /-- `HostReadStatus()`: returns STATUS (R26). -/
  | readStatus
deriving DecidableEq, Repr

/-- What can happen to the core from outside, between commands: a host action (R58) or a reset (R230). -/
inductive Input where
  /-- The host acts. -/
  | host (a : HostAction)
  /-- Reset, "an event outside the command stream that may occur only between commands" (R230). -/
  | reset
deriving DecidableEq, Repr

/-- What a reading host action returned to the host (R58). -/
inductive HostReply where
  /-- `HostReadO` returned these bytes. -/
  | output (s : List Byte)
  /-- `HostReadStatus` returned this word. -/
  | status (w : Word)
deriving DecidableEq, Repr

/-- The whole state of one core: the tuple of R20, and nothing else. BUF_MAX, the host actions and the number of cores are no fields
of it, as R37 says: BUF_MAX is in Config, the host actions are the parameter of the step relation coreStep, and a state is one
core's (log 25). -/
structure CoreState where
  /-- `RC[0..31]`, the round-constant file (R21). -/
  rc : RoundConstants
  /-- `RCV`: `RC` holds the round constants (R25). -/
  rcv : Bool
  /-- `RK[0..9]`, the round-key file (R22). -/
  rk : RoundKeys
  /-- `RKV`: `RK` holds a round-key set (R25). -/
  rkv : Bool
  /-- `A`, the first operand buffer (R50). -/
  a : Memory
  /-- `ALEN` (R28). -/
  alen : Word
  /-- `B`, the second operand buffer (R50). -/
  b : Memory
  /-- `BLEN` (R28). -/
  blen : Word
  /-- `O`, the output buffer (R50). -/
  o : Memory
  /-- `OLEN` (R28). -/
  olen : Word
  /-- `ERR`, the result code of the most recent command (R26). -/
  err : ErrCode
deriving DecidableEq, Repr

/-- A core with its outside, which the host's step needs: it takes this one argument, so R37's parameter is handed to it here, beside
the core (log 1, log 3). -/
structure State extends CoreState where
  /-- The MODEL's own field: what the outside does next, oldest first (R37, R62; log 1). -/
  inputs : List Input
  /-- The MODEL's own field: what the host has read so far, oldest first (R58; log 3). -/
  replies : List HostReply
deriving DecidableEq, Repr

/-- Why the machine stops with a fault. -/
inductive Fault where
  /-- A buffer byte that holds no value was read. Raised by every command that reads `A` or `B` and by HostReadO. Safe: the
  spec gives such a byte no value and says no rule reads it (R36, R52); with `A`, `B`, `O` filled up to their length
  registers, as every run from reset keeps them, it cannot happen (log 8). -/
  | byteHoldsNoValue
deriving DecidableEq, Repr

/-- Why a step is refused. -/
inductive Refusal where
  /-- The instruction has no meaning in this model yet. Raised by exec's arms only. Safe. No arm of this model uses it. -/
  | notModelled (mnemonic : String)
  /-- A host load of `len` bytes, more than BUF_MAX. Raised by HostLoadA and HostLoadB. Safe: "it is not a step of the machine
  and changes nothing" (R59, log 9). -/
  | loadTooLong (len : Nat)
deriving DecidableEq, Repr

/-- The outcome of a step of this machine. -/
abbrev Result := Host.Outcome State Fault Refusal

/-- The core right after reset (R36, R230). Flags, ERR and lengths are 0; no byte of `A`, `B`, `O` holds a value; what RC and RK
hold is free (DESIGN CHOICE, log 5). -/
def CoreState.reset : CoreState where
  rc := Config.resetRC
  rcv := false
  rk := Config.resetRK
  rkv := false
  a := []
  alen := 0#32
  b := []
  blen := 0#32
  o := []
  olen := 0#32
  err := .ok

/-- The machine right after reset: the core after reset; the outside has nothing in store and has read nothing (log 1, log 3). -/
def State.reset : State where
  toCoreState := CoreState.reset
  inputs := []
  replies := []

end Sys2Proof.Machine
end

