-- ==== Sys2Proof/Machine/Ops.lean ====
section
/-! DEFINITION. The named operations over the buffers (MemRead, MemWrite: spec/20_memory.md R52, R53), how a command ends with a
result (R53), and taking an error, `raise` (spec/60_exceptions.md R207). There is no return from an error: "there is no return
instruction and nothing to restore" (R208). -/

namespace Sys2Proof.Machine

/-- The byte at an offset, or none where the byte holds no value. -/
def Memory.read : Memory → Nat → Option Byte
  | [], _ => none
  | (k, v) :: m, i => if i = k then some v else Memory.read m i

/-- Give the byte at an offset a value, keeping offsets rising. -/
def Memory.write : Memory → Nat → Byte → Memory
  | [], i, v => [(i, v)]
  | (k, u) :: m, i, v =>
    if i < k then (i, v) :: (k, u) :: m
    else if i = k then (i, v) :: m
    else (k, u) :: Memory.write m i v

/-- The `n` bytes from offset `off`, if every one of them holds a value. -/
def Memory.readBytes (m : Memory) (off : Nat) : Nat → Option (List Byte)
  | 0 => some []
  | n + 1 =>
    match m.read off, Memory.readBytes m (off + 1) n with
    | some v, some r => some (v :: r)
    | _, _ => none

/-- `MemWrite(buf, off, len(v), v)` (R53): the bytes of `v` from offset `off` (the offsets differ, so their order is not seen). -/
def Memory.writeBytes (m : Memory) (off : Nat) : List Byte → Memory
  | [] => m
  | x :: v => (Memory.writeBytes m (off + 1) v).write off x

/-- `MemRead(buf, off, n)` (R52), a sequence of exactly `n` bytes. -/
def Memory.memRead (m : Memory) (off n : Nat) : Option (Vector Byte n) := (m.readBytes off n).bind (ofList? n)

/-- Chunks `MemRead(buf, off + 16*k, 16)` for `k = 0` to `count - 1`, in order (R55). -/
def Memory.chunks (m : Memory) (off : Nat) : Nat → Option (List Block)
  | 0 => some []
  | count + 1 =>
    match m.memRead off 16, Memory.chunks m (off + 16) count with
    | some x, some r => some (x :: r)
    | _, _ => none

/-- A buffer whose bytes `0` to `len(s)-1` are `s` and whose other bytes hold no value. -/
def Memory.holding (s : List Byte) : Memory := Memory.writeBytes [] 0 s

/-- A command ends with the result `out` (R53): `O[0..len) <- out`, `OLEN <- len`, `ERR <- 0`; bytes of `O` at `len` and above hold
no value. -/
def State.succeed (s : State) (out : List Byte) : State :=
  { s with o := Memory.holding out, olen := BitVec.ofNat 32 out.length, err := .ok }

/-- `raise <Error>` (R207): `ERR <- code`, `OLEN <- 0`, `O` holds no value; nothing else changes. -/
def State.raise (s : State) (e : ErrCode) : State := { s with o := [], olen := 0#32, err := e }

/-- Write all of `RC` and set `RCV` (R142). -/
def State.setRoundConstants (s : State) (c : RoundConstants) : State := { s with rc := c, rcv := true }

/-- Write all of `RK` and set `RKV` (R146). -/
def State.setRoundKeys (s : State) (k : RoundKeys) : State := { s with rk := k, rkv := true }

/-- Replace the whole valid content of `A` (R59). -/
def State.setA (s : State) (bytes : List Byte) : State :=
  { s with a := Memory.holding bytes, alen := BitVec.ofNat 32 bytes.length }

/-- Replace the whole valid content of `B` (R59). -/
def State.setB (s : State) (bytes : List Byte) : State :=
  { s with b := Memory.holding bytes, blen := BitVec.ofNat 32 bytes.length }

/-- The host has read `r` (R58, log 3). -/
def State.reply (s : State) (r : HostReply) : State := { s with replies := s.replies ++ [r] }

/-- What the outside does next is `l` (log 1). -/
def State.setInputs (s : State) (l : List Input) : State := { s with inputs := l }

/-- Every piece of the core's state at its reset value (R36, R230); what the outside does next and what the host has read are not the
core's and stay (log 4). -/
def State.resetCore (s : State) : State := { State.reset with inputs := s.inputs, replies := s.replies }

end Sys2Proof.Machine
end

