-- ==== Sys2Proof/Machine/GaloisField.lean ====
section
/-! DEFINITION. The Galois field multiplier GF(2^8) (spec/40_gf_multiplier.md): the function gf_mul and the command GFMUL. -/

namespace Sys2Proof.Machine

/-- `k` iterations of R101: add `a` where the low bit of `b` is set, multiply `a` by x with the reduction by C3, shift `b` right. -/
def gfLoop : Nat → Byte → Byte → Byte → Byte
  | 0, acc, _, _ => acc
  | k + 1, acc, a, b =>
    gfLoop k (if b &&& 0x01#8 = 0#8 then acc else acc ^^^ a)
      (if a &&& 0x80#8 = 0#8 then a <<< 1 else (a <<< 1) ^^^ 0xC3#8)
      (b >>> 1)

/-- `gf_mul(a, b)` (R101): eight iterations from an accumulator of zero. -/
def gfMul (a b : Byte) : Byte := gfLoop 8 0x00#8 a b

/-- GFMUL a, b (R102). -/
def execGfmul (a b : Byte) (s : State) : Result := .next (s.succeed [gfMul a b])

end Sys2Proof.Machine
end

