-- ==== Sys2Proof/Machine/Flags.lean ====
section
/-! DEFINITION. The numbers of the result codes (spec/60_exceptions.md R200), the STATUS word (spec/10_state.md R26), and the
length checks of the commands (R201 to R203). The core has no arithmetic flags (R25). -/

namespace Sys2Proof.Machine

/-- The three bits of `ERR` (R200). -/
def ErrCode.code : ErrCode → BitVec 3
  | .ok => 0#3
  | .invalidKeyLength => 1#3
  | .invalidBlockLength => 2#3
  | .invalidInputLength => 3#3
  | .notReady => 4#3
  | .illegalCommand => 5#3

/-- STATUS (R26): bits 31:10 are 0, bit 9 is `RKV`, bit 8 is `RCV`, bits 7:3 are 0, bits 2:0 are `ERR`. -/
def State.status (s : State) : Word :=
  0#22 ++ BitVec.ofBool s.rkv ++ BitVec.ofBool s.rcv ++ 0#5 ++ s.err.code

/-- The length check of a single-block command fails: `ALEN != 16` (R202). -/
def badBlockLength (s : State) : Bool := s.alen != 16#32

/-- The length check of DERIVE fails: `ALEN != 32` (R201). -/
def badKeyLength (s : State) : Bool := s.alen != 32#32

/-- The length checks of GAMMA fail: `ALEN = 0`, or `ALEN mod 16 != 0`, or `BLEN != 8` (R173, R203). -/
def badGammaLength (s : State) : Bool := s.alen == 0#32 || s.alen.toNat % 16 != 0 || s.blen != 8#32

/-- The length check of TAG fails: `ALEN < 32` or `ALEN mod 16 != 0` (R194, R203). -/
def badTagLength (s : State) : Bool := decide (s.alen.toNat < 32) || s.alen.toNat % 16 != 0

end Sys2Proof.Machine
end

