-- ==== Sys2Proof/Machine/Operands.lean ====
section
/-! DEFINITION. The operand forms of the commands (spec/20_memory.md R51): a block in `A`, a block in `A` with the round keys, the
round keys alone, a key in `A` with the round constants, data in `A` and sync in `B`, a message in `A`, two addends in `A` and `B`.
Each form makes its checks first, in the order length, readiness (spec/60_exceptions.md R206), then reads its operands. -/

namespace Sys2Proof.Machine

/-- A block in `A` in, bytes out (R113, R114, R124 to R127). -/
def onBlock (f : Block → List Byte) (s : State) : Result :=
  if badBlockLength s then .next (s.raise .invalidBlockLength)
  else match s.a.memRead 0 16 with
    | some x => .next (s.succeed (f x))
    | none => .fault .byteHoldsNoValue

/-- A block in `A` and the round keys in, bytes out (R164, R165). -/
def onKeyedBlock (f : Block → RoundKeys → List Byte) (s : State) : Result :=
  if badBlockLength s then .next (s.raise .invalidBlockLength)
  else if !s.rkv then .next (s.raise .notReady)
  else match s.a.memRead 0 16 with
    | some x => .next (s.succeed (f x s.rk))
    | none => .fault .byteHoldsNoValue

/-- The round keys in, bytes out (R193). -/
def onKeys (f : RoundKeys → List Byte) (s : State) : Result :=
  if !s.rkv then .next (s.raise .notReady) else .next (s.succeed (f s.rk))

/-- A master key in `A` and the round constants in, a round-key set out, which goes to `RK` and to `O` (R146). -/
def onMasterKey (f : MasterKey → RoundConstants → RoundKeys) (s : State) : Result :=
  if badKeyLength s then .next (s.raise .invalidKeyLength)
  else if !s.rcv then .next (s.raise .notReady)
  else match s.a.memRead 0 32 with
    | some mk => .next ((s.setRoundKeys (f mk s.rc)).succeed (blockBytes (f mk s.rc).toList))
    | none => .fault .byteHoldsNoValue

/-- Data chunks in `A`, a sync in `B` and the round keys in, bytes out (R173). -/
def onDataAndSync (f : List Block → Sync → RoundKeys → List Byte) (s : State) : Result :=
  if badGammaLength s then .next (s.raise .invalidInputLength)
  else if !s.rkv then .next (s.raise .notReady)
  else match s.a.chunks 0 (s.alen.toNat / 16), s.b.memRead 0 8 with
    | some data, some sync => .next (s.succeed (f data sync s.rk))
    | _, _ => .fault .byteHoldsNoValue

/-- Message chunks in `A` and the round keys in, bytes out (R194). -/
def onMessage (f : List Block → RoundKeys → List Byte) (s : State) : Result :=
  if badTagLength s then .next (s.raise .invalidInputLength)
  else if !s.rkv then .next (s.raise .notReady)
  else match s.a.chunks 0 (s.alen.toNat / 16) with
    | some data => .next (s.succeed (f data s.rk))
    | none => .fault .byteHoldsNoValue

/-- Two byte sequences of any lengths in `A` and `B` in, bytes out (R177). -/
def onTwoSequences (f : List Byte → List Byte → List Byte) (s : State) : Result :=
  match s.a.readBytes 0 s.alen.toNat, s.b.readBytes 0 s.blen.toNat with
  | some x, some y => .next (s.succeed (f x y))
  | _, _ => .fault .byteHoldsNoValue

end Sys2Proof.Machine
end

