-- ==== Sys2Proof/Machine/Linear.lean ====
section
/-! DEFINITION. The linear diffusion transform and its inverse (spec/42_linear_transform.md): the functions lfold, ilfold, lin, lin_inv
on a sequence as given, and the commands LFOLD, ILFOLD, LFWD, LINV, which apply them to `A` without reversal (R129, log 18). -/

namespace Sys2Proof.Machine

/-- The XOR over `i` of `gf_mul(x[i], c[i])`. -/
def linearForm (x c : List Byte) : Byte := (List.zipWith gfMul x c).foldl (· ^^^ ·) 0x00#8

/-- `lfold(x)` (R120): coefficient `LC[i]` on byte `i`. -/
def lfold (x : Block) : Byte := linearForm x.toList Rom.LC.toList

/-- `ilfold(x)` (R121): coefficient `LC[i+1]` on byte `i` for `i = 0` to 14, and `LC[0]` on byte 15. -/
def ilfold (x : Block) : Byte := linearForm x.toList (Rom.LC.toList.tail ++ [Rom.LC[0]])

/-- One step of `lin` (R122): drop byte 0, move the others toward the front, put the fold last. -/
def linStep (x : Block) : Block := ofList (x.toList.tail ++ [lfold x]) (by simp)

/-- `lin(x)` (R122): sixteen steps. -/
def lin (x : Block) : Block := linStep^[16] x

/-- One step of `lin_inv` (R123): drop byte 15, move the others toward the back, put the inverse fold first. -/
def linInvStep (x : Block) : Block := ofList (ilfold x :: x.toList.dropLast) (by simp)

/-- `lin_inv(x)` (R123): sixteen steps. -/
def linInv (x : Block) : Block := linInvStep^[16] x

/-- LFOLD (R124). -/
def execLfold (s : State) : Result := onBlock (fun x => [lfold x]) s

/-- ILFOLD (R125). -/
def execIlfold (s : State) : Result := onBlock (fun x => [ilfold x]) s

/-- LFWD (R126). -/
def execLfwd (s : State) : Result := onBlock (fun x => (lin x).toList) s

/-- LINV (R127). -/
def execLinv (s : State) : Result := onBlock (fun x => (linInv x).toList) s

end Sys2Proof.Machine
end

