-- ==== Sys2Proof/Machine/Substitution.lean ====
section
/-! DEFINITION. The S-box substitution layer (spec/41_substitution.md): the functions sub, sub_inv and the commands SUB, ISUB. -/

namespace Sys2Proof.Machine

/-- `sub(x)` (R110): `PI` on each byte. -/
def sub (x : Block) : Block := ofList (x.toList.map (lookup Rom.PI)) (by simp)

/-- `sub_inv(x)` (R111): `PI_INV` on each byte. -/
def subInv (x : Block) : Block := ofList (x.toList.map (lookup Rom.PI_INV)) (by simp)

/-- SUB (R113). -/
def execSub (s : State) : Result := onBlock (fun x => (sub x).toList) s

/-- ISUB (R114). -/
def execIsub (s : State) : Result := onBlock (fun x => (subInv x).toList) s

end Sys2Proof.Machine
end

