-- ==== Sys2Proof/Machine/BlockCore.lean ====
section
/-! DEFINITION. The block encrypt and decrypt pipeline (spec/44_block_core.md): the functions f_round, f_round_inv, enc, dec and the
commands ENC, DEC. Nine full rounds and a final key addition (spec/90_conflicts.md C3). -/

namespace Sys2Proof.Machine

/-- `f_round(x, k)` (R160): key addition, reversal, substitution, linear transform, reversal. -/
def fRound (x k : Block) : Block := rev (lin (sub (rev (xorBlock x k))))

/-- `f_round_inv(x, k)` (R161): key addition, reversal, inverse linear transform, inverse substitution, reversal. -/
def fRoundInv (x k : Block) : Block := rev (subInv (linInv (rev (xorBlock x k))))

/-- `enc(p, rk)` (R162): rounds with `rk[0]` to `rk[8]`, then the key addition with `rk[9]`. -/
def enc (p : Block) (rk : RoundKeys) : Block := xorBlock ((rk.toList.take 9).foldl fRound p) rk[9]

/-- `dec(c, rk)` (R163): inverse rounds with `rk[9]` down to `rk[1]`, then the key addition with `rk[0]`. -/
def dec (c : Block) (rk : RoundKeys) : Block := xorBlock (rk.toList.tail.reverse.foldl fRoundInv c) rk[0]

/-- ENC (R164). -/
def execEnc (s : State) : Result := onKeyedBlock (fun x rk => (enc x rk).toList) s

/-- DEC (R165). -/
def execDec (s : State) : Result := onKeyedBlock (fun x rk => (dec x rk).toList) s

end Sys2Proof.Machine
end

