-- ==== Sys2Proof/Machine/Gamma.lean ====
section
/-! DEFINITION. Big-endian exact addition and gamma mode (spec/45_gamma_and_adder.md): the functions add_be, inc128, gamma and the
commands GAMMA, ADDBE. -/

namespace Sys2Proof.Machine

/-- The least `k >= n` with `v < 256^k`, searched in at most `fuel` steps. -/
def leastLength (v : Nat) : Nat → Nat → Nat
  | 0, n => n
  | fuel + 1, n => if v < 256 ^ n then n else leastLength v fuel (n + 1)

theorem leastLength_le (v fuel n : Nat) : leastLength v fuel n ≤ n + fuel := by
  induction fuel generalizing n with
  | zero => simp [leastLength]
  | succ fuel ih =>
    simp only [leastLength]
    split
    · omega
    · exact Nat.le_trans (ih (n + 1)) (by omega)

/-- `add_be(a, b)` (R176): the exact sum in its least number of bytes; a zero sum is the one byte 00, an empty operand is 0
(log 13). The sum needs at most one byte more than the longer operand (R174), which bounds the search. -/
def addBe (a b : List Byte) : List Byte :=
  if be a + be b = 0 then [0x00#8]
  else beN (leastLength (be a + be b) (max a.length b.length) 1) (be a + be b)

theorem addBe_length_le (a b : List Byte) : (addBe a b).length ≤ max a.length b.length + 1 := by
  unfold addBe
  split
  · simp
  · rw [beN_length]
    exact Nat.le_trans (leastLength_le _ _ _) (by omega)

/-- `inc128(c)` (R170): add 1; a 17-byte sum loses its first byte, a shorter one is filled with zero bytes on the left (log 14). -/
def inc128 (c : Block) : Block :=
  if h : (addBe c.toList [0x01#8]).length = 17 then ofList (addBe c.toList [0x01#8]).tail (by simp [h])
  else ofList (List.replicate (16 - (addBe c.toList [0x01#8]).length) 0x00#8 ++ addBe c.toList [0x01#8]) (by
    have := addBe_length_le c.toList [0x01#8]
    simp at this ⊢
    omega)

/-- The first counter of gamma mode, `sync ‖ 0^8` (R171). -/
def firstCounter (sync : Sync) : Block := ofList (sync.toList ++ List.replicate 8 0x00#8) (by simp)

/-- The chunks of gamma mode from a counter on (R171): XOR each with the encrypted counter, then advance the counter. -/
def gammaFrom (rk : RoundKeys) : Block → List Block → List Block
  | _, [] => []
  | ctr, x :: data => xorBlock (enc ctr rk) x :: gammaFrom rk (inc128 ctr) data

/-- `gamma(data, sync, rk)` on the chunks of the data (R171). -/
def gamma (data : List Block) (sync : Sync) (rk : RoundKeys) : List Block := gammaFrom rk (firstCounter sync) data

/-- GAMMA (R173). -/
def execGamma (s : State) : Result := onDataAndSync (fun data sync rk => blockBytes (gamma data sync rk)) s

/-- ADDBE (R177). -/
def execAddbe (s : State) : Result := onTwoSequences addBe s

end Sys2Proof.Machine
end

