-- ==== Sys2Proof/Machine/Imito.lean ====
section
/-! DEFINITION. The CBC-MAC imito tag generator (spec/46_imito.md): the functions dbl, subkey, tag and the commands SUBKEY, TAG. -/

namespace Sys2Proof.Machine

/-- The zero block `0^16`. -/
def zeroBlock : Block := ofList (List.replicate 16 0x00#8) rfl

/-- The shift of `dbl` (R190): one bit to the left as one big-endian bit string; bit 7 of byte `i+1` enters byte `i`, zero enters
at the very end, bit 7 of byte 0 is lost (spec/90_conflicts.md C4). -/
def shiftLeft1 (r : Block) : Block :=
  ofList (List.zipWith (fun x y : Byte => (x <<< 1) ||| (y >>> 7)) r.toList (r.toList.tail ++ [0x00#8])) (by simp)

/-- `dbl(r)` (R190): the shift, then XOR with `B128` iff the last byte AFTER the shift is not zero (R195, log 15). -/
def dbl (r : Block) : Block :=
  if (shiftLeft1 r)[15] = 0x00#8 then shiftLeft1 r else xorBlock (shiftLeft1 r) Rom.B128

/-- `subkey(rk)` (R191). -/
def subkey (rk : RoundKeys) : Block := dbl (enc zeroBlock rk)

/-- The accumulator of `tag` over the chunks after the first (R192): the last chunk is XORed in with the subkey, the others
alone; each time the accumulator is encrypted. -/
def tagFrom (rk : RoundKeys) : Block → List Block → Block
  | acc, [] => acc
  | acc, [x] => enc (xorBlock (xorBlock acc x) (subkey rk)) rk
  | acc, x :: y :: data => tagFrom rk (enc (xorBlock acc x) rk) (y :: data)

/-- The final accumulator of `tag`. R192 gives the function at least two chunks; on none it is not used (log 27). -/
def tagAccumulator (rk : RoundKeys) : List Block → Block
  | [] => zeroBlock
  | x :: data => tagFrom rk (enc x rk) data

/-- `tag(data, rk)` (R192): the first eight bytes of the final accumulator. -/
def tag (data : List Block) (rk : RoundKeys) : Tag := ofList ((tagAccumulator rk data).toList.take 8) (by simp)

/-- SUBKEY (R193). -/
def execSubkey (s : State) : Result := onKeys (fun rk => (subkey rk).toList) s

/-- TAG (R194). -/
def execTag (s : State) : Result := onMessage (fun data rk => (tag data rk).toList) s

end Sys2Proof.Machine
end

