-- ==== Sys2Proof/Machine/KeySchedule.lean ====
section
/-! DEFINITION. The round constants and the Feistel key schedule (spec/43_round_constants_key_schedule.md): the functions rc_gen,
key_schedule and the commands INIT, DERIVE. -/

namespace Sys2Proof.Machine

/-- The block `rc_gen` makes from `i` (R140): fifteen zero bytes and `i`, through the linear transform in LSB-first order. -/
def roundConstant (i : Byte) : Block := rev (lin (rev (ofList (List.replicate 15 0x00#8 ++ [i]) rfl)))

/-- `rc_gen()` (R140): entry `i - 1` is made from `i`, for `i = 1` to 32. -/
def rcGen : RoundConstants :=
  Vector.mk ((List.range 32).map fun k => roundConstant (BitVec.ofNat 8 (k + 1))).toArray (by simp)

/-- Step `j` of a group (R144): an even step updates `k2` from `k1`, an odd step updates `k1` from `k2`. -/
def feistelStep (c : Block) (j : Nat) (k : Block × Block) : Block × Block :=
  if j % 2 = 0 then (k.1, xorBlock (fRound k.1 c) k.2) else (xorBlock (fRound k.2 c) k.1, k.2)

/-- Group `i` of the key schedule (R144): steps `j = 0` to 7 with the constants `c[8*i + j]`. -/
def feistelGroup (rc : RoundConstants) (i : Fin 4) (k : Block × Block) : Block × Block :=
  ([0, 1, 2, 3, 4, 5, 6, 7] : List (Fin 8)).foldl (fun k j => feistelStep rc[8 * i.val + j.val] j.val k) k

/-- `key_schedule(mk, c)` (R144): the halves of the master key, then the working pair after each of the four groups. -/
def keySchedule (mk : MasterKey) (rc : RoundConstants) : RoundKeys :=
  let k0 : Block × Block := (ofList (mk.toList.take 16) (by simp), ofList (mk.toList.drop 16) (by simp))
  let k1 := feistelGroup rc 0 k0
  let k2 := feistelGroup rc 1 k1
  let k3 := feistelGroup rc 2 k2
  let k4 := feistelGroup rc 3 k3
  #v[k0.1, k0.2, k1.1, k1.2, k2.1, k2.2, k3.1, k3.2, k4.1, k4.2]

/-- INIT (R142). -/
def execInit (s : State) : Result := .next ((s.setRoundConstants rcGen).succeed (blockBytes rcGen.toList))

/-- DERIVE (R146). -/
def execDerive (s : State) : Result := onMasterKey keySchedule s

end Sys2Proof.Machine
end

