-- ==== Sys2Proof/Machine/Dispatch.lean ====
section
/-! DEFINITION. One arm per command, each the call of its meaning (spec/30_encoding.md R83). -/

namespace Sys2Proof.Machine

def exec (i : Instr) (s : State) : Host.Outcome State Fault Refusal :=
  match i with
  | .gfmul a b => Sys2Proof.Machine.execGfmul a b s
  | .lfold => Sys2Proof.Machine.execLfold s
  | .ilfold => Sys2Proof.Machine.execIlfold s
  | .lfwd => Sys2Proof.Machine.execLfwd s
  | .linv => Sys2Proof.Machine.execLinv s
  | .sub => Sys2Proof.Machine.execSub s
  | .isub => Sys2Proof.Machine.execIsub s
  | .init => Sys2Proof.Machine.execInit s
  | .derive => Sys2Proof.Machine.execDerive s
  | .enc => Sys2Proof.Machine.execEnc s
  | .dec => Sys2Proof.Machine.execDec s
  | .gamma => Sys2Proof.Machine.execGamma s
  | .addbe => Sys2Proof.Machine.execAddbe s
  | .subkey => Sys2Proof.Machine.execSubkey s
  | .tag => Sys2Proof.Machine.execTag s

end Sys2Proof.Machine
end

