-- ==== Sys2Proof/Machine/HostPort.lean ====
section
/-! DEFINITION. What comes to the core from outside: the five host actions (spec/20_memory.md R58 to R60) and reset
(spec/70_reset_and_hazards.md R230), the core's step relation and its runs, with
what the outside does as their parameter (spec/10_state.md R37), and how the next input is taken from State.inputs (log 1, log 2). -/

namespace Sys2Proof.Machine

/-- `HostLoadA(s)` (R59): `A` becomes exactly `bytes`, `ALEN` their number; refused above BUF_MAX (log 9). -/
def hostLoadA (bytes : List Byte) (s : State) : Result :=
  if bytes.length ≤ Config.bufMax then .next (s.setA bytes) else .refused (.loadTooLong bytes.length)

/-- `HostLoadB(s)` (R59): the same for `B` and `BLEN`. -/
def hostLoadB (bytes : List Byte) (s : State) : Result :=
  if bytes.length ≤ Config.bufMax then .next (s.setB bytes) else .refused (.loadTooLong bytes.length)

/-- `HostIssue(w)` (R27, R81): the decoded command runs to its end; an illegal word raises `IllegalCommand` (R205). -/
def hostIssue (w : Word) (s : State) : Result :=
  match decode w with
  | .ok i => exec i s
  | .error _ => .next (s.raise .illegalCommand)

/-- `HostReadO()` (R58, R60): returns `O[0..OLEN)` and changes nothing of the core (log 3). -/
def hostReadO (s : State) : Result :=
  match s.o.readBytes 0 s.olen.toNat with
  | some bytes => .next (s.reply (.output bytes))
  | none => .fault .byteHoldsNoValue

/-- `HostReadStatus()` (R26, R58): returns STATUS and changes nothing of the core (log 3). -/
def hostReadStatus (s : State) : Result := .next (s.reply (.status s.status))

/-- Reset (R230). -/
def resetEvent (s : State) : Result := .next s.resetCore

/-- One host action (R58). -/
def hostAct : HostAction → State → Result
  | .loadA bytes, s => hostLoadA bytes s
  | .loadB bytes, s => hostLoadB bytes s
  | .issue w, s => hostIssue w s
  | .readO, s => hostReadO s
  | .readStatus, s => hostReadStatus s

/-- One thing from outside, on a core with its outside. -/
def perform : Input → State → Result
  | .host act, s => hostAct act s
  | .reset, s => resetEvent s

/-- `f` on what an outcome goes on with; a stop stays. -/
def mapNext {σ τ : Type} (f : σ → τ) : Host.Outcome σ Fault Refusal → Host.Outcome τ Fault Refusal
  | .next s => .next (f s)
  | .fault r => .fault r
  | .refused r => .refused r

/-- The core with an empty outside. -/
def CoreState.alone (k : CoreState) : State := { toCoreState := k, inputs := [], replies := [] }

/-- The step relation of spec/10_state.md R37, on the state of R20, with what the outside does as its parameter `x`: the next state of
the core, and what a reading host action returns (R58). -/
def coreStep (x : Input) (k : CoreState) : Host.Outcome (CoreState × List HostReply) Fault Refusal :=
  mapNext (fun t => (t.toCoreState, t.replies)) (perform x k.alone)

/-- The run of the core under a sequence of things from outside, the parameter of R37, to its end or to the first stop, with
everything the host has read on the way, oldest first. -/
def coreRun : List Input → CoreState → Host.Outcome (CoreState × List HostReply) Fault Refusal
  | [], k => .next (k, [])
  | x :: l, k =>
    match coreStep x k with
    | .next (k', r) => mapNext (fun p => (p.1, r ++ p.2)) (coreRun l k')
    | .fault e => .fault e
    | .refused e => .refused e

/-- A core with its outside from what the step relation gives: `l` is in store, `r` has been read before (log 1, log 3). -/
def rejoin (l : List Input) (r : List HostReply) (p : CoreState × List HostReply) : State :=
  { toCoreState := p.1, inputs := l, replies := r ++ p.2 }

/-- The oldest input in store is handed to the core's step relation as its parameter (R37, log 1); with none in store the core
idles, unchanged (log 2). -/
def takeInput (s : State) : Result :=
  match s.inputs with
  | [] => .next s
  | x :: rest => mapNext (rejoin rest s.replies) (coreStep x s.toCoreState)

/-- The state in which the host writes the word `w` to CMD next. -/
def State.withIssue (s : State) (w : Word) : State := s.setInputs (.host (.issue w) :: s.inputs)

end Sys2Proof.Machine
end

