-- ==== Sys2Proof/Machine/Step.lean ====
section
/-! DEFINITION. One step of the machine: one action of the outside, with all the core does in answer (spec/10_state.md R20,
spec/20_memory.md R62). -/

namespace Sys2Proof.Machine

/-- One step. -/
def step (s : State) : Host.Outcome State Fault Refusal := takeInput s

/-- `s` with the instruction of bits `w` where step takes its next one: the host writes it to CMD next (log 28). -/
def State.withFetchWord (s : State) (nbits w : Nat) : State := s.withIssue (tableWord nbits w)

end Sys2Proof.Machine
end

