-- ==== Sys2Proof/Safety.lean ====
section
/-! DEFINITION. What claims about runs are stated in: the invariant of the core, which code a command
reports (spec/60_exceptions.md R206, R212), and what each command reads (spec/20_memory.md R51, spec/10_state.md R20). -/

namespace Sys2Proof.Machine

/-- The bytes that hold a value are exactly those at offsets `0` to `n - 1` (R50). -/
abbrev Memory.filledTo (m : Memory) (n : Nat) : Prop := m.map Prod.fst = List.range n

/-- The invariant of the core: the buffers are filled up to their length registers and no further (R50), the lengths are legal (R28),
RC holds the round constants when RCV is set and RK a round-key set when RKV is set (R25), and a reported error leaves no
result (R60, R207). -/
structure State.Inv (s : State) : Prop where
  aFilled : s.a.filledTo s.alen.toNat
  aFits : s.alen.toNat ≤ Config.bufMax
  bFilled : s.b.filledTo s.blen.toNat
  bFits : s.blen.toNat ≤ Config.bufMax
  oFilled : s.o.filledTo s.olen.toNat
  oFits : s.olen.toNat ≤ Config.bufMax + 1
  constantsValid : s.rcv = true → s.rc = rcGen
  keysValid : s.rkv = true → ∃ mk : MasterKey, s.rk = keySchedule mk rcGen
  keysNeedConstants : s.rkv = true → s.rcv = true
  noResultOnError : s.err ≠ .ok → s.olen = 0#32

/-- The three buffers have the canonical form. -/
def State.memoriesCanonical (s : State) : Prop := s.a.wf ∧ s.b.wf ∧ s.o.wf

/-- The code R212 gives for a command in a state, with R206's order: length, then readiness. -/
def expectedCode (s : State) : Instr → ErrCode
  | .gfmul _ _ => .ok
  | .init => .ok
  | .addbe => .ok
  | .lfold => if s.alen = 16#32 then .ok else .invalidBlockLength
  | .ilfold => if s.alen = 16#32 then .ok else .invalidBlockLength
  | .lfwd => if s.alen = 16#32 then .ok else .invalidBlockLength
  | .linv => if s.alen = 16#32 then .ok else .invalidBlockLength
  | .sub => if s.alen = 16#32 then .ok else .invalidBlockLength
  | .isub => if s.alen = 16#32 then .ok else .invalidBlockLength
  | .derive => if s.alen ≠ 32#32 then .invalidKeyLength else if s.rcv = false then .notReady else .ok
  | .enc => if s.alen ≠ 16#32 then .invalidBlockLength else if s.rkv = false then .notReady else .ok
  | .dec => if s.alen ≠ 16#32 then .invalidBlockLength else if s.rkv = false then .notReady else .ok
  | .gamma =>
    if s.alen = 0#32 ∨ s.alen.toNat % 16 ≠ 0 ∨ s.blen ≠ 8#32 then .invalidInputLength
    else if s.rkv = false then .notReady else .ok
  | .subkey => if s.rkv = false then .notReady else .ok
  | .tag =>
    if s.alen.toNat < 32 ∨ s.alen.toNat % 16 ≠ 0 then .invalidInputLength
    else if s.rkv = false then .notReady else .ok

/-- The commands that read `A` and `ALEN` (R51). -/
def readsA : Instr → Bool
  | .gfmul _ _ => false
  | .init => false
  | .subkey => false
  | .lfold => true
  | .ilfold => true
  | .lfwd => true
  | .linv => true
  | .sub => true
  | .isub => true
  | .derive => true
  | .enc => true
  | .dec => true
  | .gamma => true
  | .addbe => true
  | .tag => true

/-- The commands that read `B` and `BLEN` (R51). -/
def readsB (i : Instr) : Bool := i == .gamma || i == .addbe

/-- The command that reads `RC` and `RCV` (R21). -/
def readsConstants (i : Instr) : Bool := i == .derive

/-- The commands that read `RK` and `RKV` (R22). -/
def readsKeys (i : Instr) : Bool := i == .enc || i == .dec || i == .gamma || i == .subkey || i == .tag

/-- The digits of the byte-serial adder of spec/45_gamma_and_adder.md R174, most significant first: `n` more bytes from position `k`
counted from the last byte, with the carry `c` into it; a missing byte is 0, a remaining carry is a leading 01. -/
def serialDigits (x y : List Byte) : Nat → Nat → Nat → List Byte
  | 0, _, c => if c = 0 then [] else [0x01#8]
  | n + 1, k, c =>
    serialDigits x y n (k + 1) (((x.reverse.getD k 0x00#8).toNat + (y.reverse.getD k 0x00#8).toNat + c) / 256) ++
      [BitVec.ofNat 8 (((x.reverse.getD k 0x00#8).toNat + (y.reverse.getD k 0x00#8).toNat + c) % 256)]

/-- The byte-serial adder of R174: the digits, without leading zero bytes, down to at least one byte. -/
def serialAdd (x y : List Byte) : List Byte :=
  match (serialDigits x y (max x.length y.length) 0 0).dropWhile (· == 0x00#8) with
  | [] => [0x00#8]
  | d :: l => d :: l

/-- The block whose byte `i` is 01 and whose other bytes are 0 (spec/42_linear_transform.md R128). -/
def unitBlock (i : Fin 16) : Block := ofList ((List.replicate 16 0x00#8).set i.val 0x01#8) (by simp)

end Sys2Proof.Machine
end

