-- ==== Sys2Proof/WellFormed.lean ====
section
/-! DEFINITION. What is a well-formed command, and a well-formed command word. A command's only operands are GFMUL's two
bytes, whose width the type fixes (spec/30_encoding.md R82), so every command term is well formed; the checks the spec has
are on the WORD: it must meet one row of R83's map of masks and matches. This map is written beside the decoder and
independently of it: that both agree is a statement of this model. -/

namespace Sys2Proof

/-- Is the command well formed? GFMUL's `a` and `b` are bytes by type and no other command has an operand (R82), so there is
nothing left to check. -/
def Instr.wellFormed : Instr → Bool
  | .gfmul _ _ => true
  | .lfold => true
  | .ilfold => true
  | .lfwd => true
  | .linv => true
  | .sub => true
  | .isub => true
  | .init => true
  | .derive => true
  | .enc => true
  | .dec => true
  | .gamma => true
  | .addbe => true
  | .subkey => true
  | .tag => true

/-- The mask of a command's row in R83: the bits of the word that the row fixes. -/
def Instr.mask : Instr → Word
  | .gfmul _ _ => 0xFFFF0000#32
  | .lfold => 0xFFFFFFFF#32
  | .ilfold => 0xFFFFFFFF#32
  | .lfwd => 0xFFFFFFFF#32
  | .linv => 0xFFFFFFFF#32
  | .sub => 0xFFFFFFFF#32
  | .isub => 0xFFFFFFFF#32
  | .init => 0xFFFFFFFF#32
  | .derive => 0xFFFFFFFF#32
  | .enc => 0xFFFFFFFF#32
  | .dec => 0xFFFFFFFF#32
  | .gamma => 0xFFFFFFFF#32
  | .addbe => 0xFFFFFFFF#32
  | .subkey => 0xFFFFFFFF#32
  | .tag => 0xFFFFFFFF#32

/-- The match value of a command's row in R83: what the masked bits of its word are. -/
def Instr.pattern : Instr → Word
  | .gfmul _ _ => 0x01000000#32
  | .lfold => 0x02000000#32
  | .ilfold => 0x03000000#32
  | .lfwd => 0x04000000#32
  | .linv => 0x05000000#32
  | .sub => 0x06000000#32
  | .isub => 0x07000000#32
  | .init => 0x08000000#32
  | .derive => 0x09000000#32
  | .enc => 0x0A000000#32
  | .dec => 0x0B000000#32
  | .gamma => 0x0C000000#32
  | .addbe => 0x0D000000#32
  | .subkey => 0x0E000000#32
  | .tag => 0x0F000000#32

/-- One command for each row of R83's map (its row of masks does not depend on GFMUL's operands). -/
def Instr.rows : List Instr :=
  [.gfmul 0 0, .lfold, .ilfold, .lfwd, .linv, .sub, .isub, .init, .derive, .enc, .dec, .gamma, .addbe, .subkey, .tag]

/-- The word meets some row of R83: "a word `w` is the command iff `(w AND mask) = match`". -/
def isCommandWord (w : Word) : Bool := Instr.rows.any fun i => w &&& i.mask == i.pattern

end Sys2Proof
end

