-- ==== Sys2Proof/Certificates/Slice0/Obligations.lean ====
section
/-! DEFINITION. The statements for the provers. Each docstring names the rule of spec/ it formalises; where a clause rests on a
choice of the model and not on a rule, the docstring names the log entry. -/

open Sys2Proof Sys2Proof.Machine

/-! Encoding -/

/-- R81, R27: a word that decodes to a command, written to CMD, runs that command; any word written to CMD is what HostIssue does
with it. Taking the oldest input is the model's (log 1). -/
def Obligations.StepRunsDecodedCommand : Prop :=
  ∀ (s : State) (w : Word) (rest : List Input), s.inputs = .host (.issue w) :: rest →
    step s = hostIssue w { s with inputs := rest } ∧
    ∀ i : Instr, decode w = .ok i → i.wellFormed = true → step s = exec i { s with inputs := rest }

/-- R84: the illegal words, each of which ends with IllegalCommand and changes nothing else. -/
def Obligations.IllegalWordsRaiseIllegalCommand : Prop :=
  ∀ (s : State) (w : Word),
    (opcodeField w = 0x00#8 ∨ 0x10#8 ≤ opcodeField w ∨
      (0x02#8 ≤ opcodeField w ∧ opcodeField w ≤ 0x0F#8 ∧ w.extractLsb' 0 24 ≠ 0#24) ∨
      (opcodeField w = 0x01#8 ∧ w.extractLsb' 16 8 ≠ 0#8)) →
    hostIssue w s = .next { s with o := [], olen := 0#32, err := .illegalCommand }

/-- R80 to R83: decoding the word of a command gives the command back, every operand at every value. -/
def Obligations.DecodeInvertsEncode : Prop := ∀ i : Instr, i.wellFormed = true → decode (encode i) = .ok i

/-- R80 to R83: a word that decodes to a command is that command's word. -/
def Obligations.EncodeInvertsDecode : Prop := ∀ (w : Word) (i : Instr), decode w = .ok i → encode i = w

/-- R83: a word is a row's command iff (w AND mask) = match. -/
def Obligations.DecodeAgreesWithMaskAndMatch : Prop :=
  ∀ (w : Word) (i : Instr), i ∈ Instr.rows →
    ((∃ j, decode w = .ok j ∧ j.pattern = i.pattern) ↔ w &&& i.mask = i.pattern)

/-- Some words of the opcode map (R83) and of V1 and V28 of spec/95_test_vectors.md, and what they decode to. -/
def Obligations.SampleWordsDecode : Prop :=
  decode 0x01009485#32 = .ok (.gfmul 0x94#8 0x85#8) ∧ decode 0x0100FFFF#32 = .ok (.gfmul 0xFF#8 0xFF#8) ∧
  decode 0x02000000#32 = .ok .lfold ∧ decode 0x06000000#32 = .ok .sub ∧ decode 0x08000000#32 = .ok .init ∧
  decode 0x0A000000#32 = .ok .enc ∧ decode 0x0D000000#32 = .ok .addbe ∧ decode 0x0F000000#32 = .ok .tag ∧
  decode 0x00000000#32 = .error (.unknownOpcode 0x00#8) ∧ decode 0x10000000#32 = .error (.unknownOpcode 0x10#8) ∧
  decode 0x01010000#32 = .error .zeroFieldSet ∧ decode 0x08800000#32 = .error .zeroFieldSet ∧
  decode 0x0A000001#32 = .error .zeroFieldSet

/-! Reset, the invariant, termination -/

/-- R36: what reset leaves; a byte of a buffer holds no value (log 8); what RC and RK hold is the model's (log 5) and not stated. -/
def Obligations.ResetClearsFlagsLengthsAndBuffers : Prop :=
  State.reset.rcv = false ∧ State.reset.rkv = false ∧ State.reset.err = .ok ∧ State.reset.alen = 0#32 ∧
  State.reset.blen = 0#32 ∧ State.reset.olen = 0#32 ∧ State.reset.status = 0#32 ∧
  ∀ off : Nat, State.reset.a.read off = none ∧ State.reset.b.read off = none ∧ State.reset.o.read off = none

/-- R230: reset puts every piece of the core's state into the reset state, from any state. That the inputs in store and what the
host has read stay is the model's (log 1, log 3, log 4). -/
def Obligations.ResetEventRestoresResetState : Prop :=
  ∀ (s : State) (rest : List Input), s.inputs = .reset :: rest →
    step s = .next { State.reset with inputs := rest, replies := s.replies }

/-- The reset state meets the invariant. -/
def Obligations.ResetMeetsInvariant : Prop := State.reset.Inv

/-- Every step keeps the invariant: buffers filled exactly to their lengths (R50), lengths legal (R28), RC the round constants
when RCV is set and RK a round-key set when RKV is set (R21, R22, R25), no result after an error (R60). That BUF_MAX + 1 fits in
32 bits is deduced (log 7). -/
def Obligations.StepKeepsInvariant : Prop := ∀ s t : State, s.Inv → step s = .next t → t.Inv

/-- Every step keeps the canonical form of the three buffers, whatever else the state holds. -/
def Obligations.StepKeepsCanonicalBuffers : Prop :=
  ∀ s t : State, s.memoriesCanonical → step s = .next t → t.memoriesCanonical

/-- R214: the core is never stuck; the one thing refused is a load of more than BUF_MAX bytes (R59, log 1, log 9). The spec marks
this as its own inference ([derived] in R214). -/
def Obligations.StepGoesOnUnlessLoadTooLong : Prop :=
  ∀ s : State, s.Inv →
    (∃ t, step s = .next t) ∨
    ∃ (bytes : List Byte) (rest : List Input), Config.bufMax < bytes.length ∧
      (s.inputs = .host (.loadA bytes) :: rest ∨ s.inputs = .host (.loadB bytes) :: rest) ∧
      step s = .refused (.loadTooLong bytes.length)

/-- R214, R212: under the invariant every command ends, with the code of R212's table. The spec marks this as its own inference
([derived] in R214, R212). -/
def Obligations.EveryCommandEndsWithItsCode : Prop :=
  ∀ (s : State) (i : Instr), s.Inv → ∃ t, exec i s = .next t ∧ t.err = expectedCode s i

/-- R50, R52: under the invariant every byte below a length register can be read, and no other. -/
def Obligations.InvariantMakesOperandsReadable : Prop :=
  ∀ (s : State) (off n : Nat), s.Inv → 0 < n →
    ((s.a.memRead off n).isSome ↔ off + n ≤ s.alen.toNat) ∧ ((s.b.memRead off n).isSome ↔ off + n ≤ s.blen.toNat) ∧
    ((s.o.readBytes off n).isSome ↔ off + n ≤ s.olen.toNat)

/-! Errors -/

/-- R206, R207: when a check of a command fails, the first one that fails is reported and nothing else happens; an illegal word
the same. -/
def Obligations.FailedCheckOnlyReports : Prop :=
  (∀ (s : State) (i : Instr), expectedCode s i ≠ .ok →
    exec i s = .next { s with o := [], olen := 0#32, err := expectedCode s i }) ∧
  (∀ (s : State) (w : Word) (e : DecodeError), decode w = .error e →
    hostIssue w s = .next { s with o := [], olen := 0#32, err := .illegalCommand })

/-- R212: which command can end with which code: every command that ends reports the table's code. The spec marks this as its own
inference ([derived] in R212). -/
def Obligations.ReportedCodeIsTheTables : Prop :=
  ∀ (s t : State) (i : Instr), exec i s = .next t → t.err = expectedCode s i

/-- The model's stop (log 8; R36, D26: a model faults if its own code ever reads a byte without a value): a command whose checks
pass and whose operand has such a byte faults. -/
def Obligations.OperandWithoutValueFaults : Prop :=
  ∀ (s : State) (i : Instr), expectedCode s i = .ok →
    ((readsA i = true ∧ s.a.readBytes 0 s.alen.toNat = none) ∨ (readsB i = true ∧ s.b.readBytes 0 s.blen.toNat = none)) →
    exec i s = .fault .byteHoldsNoValue

/-! What commands change and read -/

/-- R53: no command writes `A`, `B`, `ALEN`, `BLEN`. That no command touches inputs (log 1) or replies (log 3) concerns the
model's own fields. -/
def Obligations.CommandsKeepOperands : Prop :=
  ∀ (s t : State) (i : Instr), exec i s = .next t →
    t.a = s.a ∧ t.alen = s.alen ∧ t.b = s.b ∧ t.blen = s.blen ∧ t.inputs = s.inputs ∧ t.replies = s.replies

/-- R21, R22, R25: RC and RCV are written only by INIT, RK and RKV only by DERIVE, and only when they succeed. -/
def Obligations.KeyRegistersHaveOneWriterEach : Prop :=
  ∀ (s t : State) (i : Instr), exec i s = .next t →
    ((t.rc ≠ s.rc ∨ t.rcv ≠ s.rcv) → i = .init ∧ t.err = .ok) ∧
    ((t.rk ≠ s.rk ∨ t.rkv ≠ s.rkv) → i = .derive ∧ t.err = .ok)

/-- R25: no command clears either flag; only reset does. That reset comes as an input is the model's (log 1, log 4). -/
def Obligations.OnlyResetClearsValidFlags : Prop :=
  ∀ s t : State, step s = .next t →
    ((s.rcv = true ∧ t.rcv = false) ∨ (s.rkv = true ∧ t.rkv = false)) → s.inputs.head? = some .reset

/-- R57: re-issuing a command is harmless: after it has run, the same command leaves the state as it is. -/
def Obligations.ReissueChangesNothing : Prop :=
  ∀ (s t : State) (i : Instr), exec i s = .next t → exec i t = .next t

/-- R51, R20: a command's result depends on nothing but the operands and registers the table says it reads. -/
def Obligations.ResultDependsOnReadOperandsOnly : Prop :=
  ∀ (s s' t : State) (i : Instr),
    (readsA i = true → s'.a = s.a ∧ s'.alen = s.alen) → (readsB i = true → s'.b = s.b ∧ s'.blen = s.blen) →
    (readsConstants i = true → s'.rc = s.rc ∧ s'.rcv = s.rcv) → (readsKeys i = true → s'.rk = s.rk ∧ s'.rkv = s.rkv) →
    exec i s = .next t → ∃ t', exec i s' = .next t' ∧ t'.o = t.o ∧ t'.olen = t.olen ∧ t'.err = t.err

/-! The host -/

/-- R59: a load of at most BUF_MAX bytes replaces the whole valid content of its buffer and nothing else; a longer one is refused
(log 9). That the load is the oldest input in store is the model's (log 1). -/
def Obligations.LoadReplacesOneBuffer : Prop :=
  ∀ (s : State) (bytes : List Byte) (rest : List Input),
    (s.inputs = .host (.loadA bytes) :: rest → bytes.length ≤ Config.bufMax →
      step s = .next { s with inputs := rest, a := Memory.holding bytes, alen := BitVec.ofNat 32 bytes.length }) ∧
    (s.inputs = .host (.loadB bytes) :: rest → bytes.length ≤ Config.bufMax →
      step s = .next { s with inputs := rest, b := Memory.holding bytes, blen := BitVec.ofNat 32 bytes.length }) ∧
    (s.inputs = .host (.loadA bytes) :: rest ∨ s.inputs = .host (.loadB bytes) :: rest → Config.bufMax < bytes.length →
      step s = .refused (.loadTooLong bytes.length))

/-- R58, R60, R26: a read returns O[0..OLEN) or STATUS and changes nothing of the core. That the returned value is kept in
replies is the model's (log 3), as are the fault on a byte without a value (log 8) and the inputs in store (log 1). -/
def Obligations.HostReadsReturnAndChangeNothing : Prop :=
  ∀ (s : State) (rest : List Input),
    (∀ bytes, s.inputs = .host .readO :: rest → s.o.readBytes 0 s.olen.toNat = some bytes →
      step s = .next { s with inputs := rest, replies := s.replies ++ [.output bytes] }) ∧
    (s.inputs = .host .readO :: rest → s.o.readBytes 0 s.olen.toNat = none → step s = .fault .byteHoldsNoValue) ∧
    (s.inputs = .host .readStatus :: rest →
      step s = .next { s with inputs := rest, replies := s.replies ++ [.status s.status] })

/-- The model's idle step (log 2): with nothing in store from outside, nothing changes. -/
def Obligations.IdleStepChangesNothing : Prop := ∀ s : State, s.inputs = [] → step s = .next s

/-- R26, R200: the fields of STATUS and the numbers of the codes. -/
def Obligations.StatusWordFields : Prop :=
  ∀ s : State,
    s.status.extractLsb' 0 3 = s.err.code ∧ s.status.extractLsb' 3 5 = 0#5 ∧ s.status.getLsbD 8 = s.rcv ∧
    s.status.getLsbD 9 = s.rkv ∧ s.status.extractLsb' 10 22 = 0#22 ∧ s.err.code ≠ 6#3 ∧ s.err.code ≠ 7#3 ∧
    (s.err.code = 0#3 ↔ s.err = .ok) ∧ (s.err.code = 1#3 ↔ s.err = .invalidKeyLength) ∧
    (s.err.code = 2#3 ↔ s.err = .invalidBlockLength) ∧ (s.err.code = 3#3 ↔ s.err = .invalidInputLength) ∧
    (s.err.code = 4#3 ↔ s.err = .notReady) ∧ (s.err.code = 5#3 ↔ s.err = .illegalCommand)

/-! The fifteen commands: the word, the checks, the result, and that nothing else changes (the whole next state is given) -/

/-- R102. -/
def Obligations.GfmulCommand : Prop :=
  ∀ (s : State) (a b : Byte),
    decode (0x01#8 ++ 0x00#8 ++ a ++ b) = .ok (.gfmul a b) ∧
    exec (.gfmul a b) s = .next { s with o := Memory.holding [gfMul a b], olen := 1#32, err := .ok }

/-- R124. -/
def Obligations.LfoldCommand : Prop :=
  decode 0x02000000#32 = .ok .lfold ∧
  ∀ s : State,
    (s.alen ≠ 16#32 → exec .lfold s = .next { s with o := [], olen := 0#32, err := .invalidBlockLength }) ∧
    ∀ x : Block, s.alen = 16#32 → s.a.memRead 0 16 = some x →
      exec .lfold s = .next { s with o := Memory.holding [lfold x], olen := 1#32, err := .ok }

/-- R125. -/
def Obligations.IlfoldCommand : Prop :=
  decode 0x03000000#32 = .ok .ilfold ∧
  ∀ s : State,
    (s.alen ≠ 16#32 → exec .ilfold s = .next { s with o := [], olen := 0#32, err := .invalidBlockLength }) ∧
    ∀ x : Block, s.alen = 16#32 → s.a.memRead 0 16 = some x →
      exec .ilfold s = .next { s with o := Memory.holding [ilfold x], olen := 1#32, err := .ok }

/-- R126. -/
def Obligations.LfwdCommand : Prop :=
  decode 0x04000000#32 = .ok .lfwd ∧
  ∀ s : State,
    (s.alen ≠ 16#32 → exec .lfwd s = .next { s with o := [], olen := 0#32, err := .invalidBlockLength }) ∧
    ∀ x : Block, s.alen = 16#32 → s.a.memRead 0 16 = some x →
      exec .lfwd s = .next { s with o := Memory.holding (lin x).toList, olen := 16#32, err := .ok }

/-- R127. -/
def Obligations.LinvCommand : Prop :=
  decode 0x05000000#32 = .ok .linv ∧
  ∀ s : State,
    (s.alen ≠ 16#32 → exec .linv s = .next { s with o := [], olen := 0#32, err := .invalidBlockLength }) ∧
    ∀ x : Block, s.alen = 16#32 → s.a.memRead 0 16 = some x →
      exec .linv s = .next { s with o := Memory.holding (linInv x).toList, olen := 16#32, err := .ok }

/-- R113. -/
def Obligations.SubCommand : Prop :=
  decode 0x06000000#32 = .ok .sub ∧
  ∀ s : State,
    (s.alen ≠ 16#32 → exec .sub s = .next { s with o := [], olen := 0#32, err := .invalidBlockLength }) ∧
    ∀ x : Block, s.alen = 16#32 → s.a.memRead 0 16 = some x →
      exec .sub s = .next { s with o := Memory.holding (Machine.sub x).toList, olen := 16#32, err := .ok }

/-- R114. -/
def Obligations.IsubCommand : Prop :=
  decode 0x07000000#32 = .ok .isub ∧
  ∀ s : State,
    (s.alen ≠ 16#32 → exec .isub s = .next { s with o := [], olen := 0#32, err := .invalidBlockLength }) ∧
    ∀ x : Block, s.alen = 16#32 → s.a.memRead 0 16 = some x →
      exec .isub s = .next { s with o := Memory.holding (subInv x).toList, olen := 16#32, err := .ok }

/-- R142. -/
def Obligations.InitCommand : Prop :=
  decode 0x08000000#32 = .ok .init ∧
  ∀ s : State,
    (exec .init s =
      .next { s with rc := rcGen, rcv := true, o := Memory.holding (blockBytes rcGen.toList), olen := 512#32, err := .ok }) ∧
    ∀ (i : Instr) (t : State), exec i s = .next t → s.rcv = false → t.rcv = true → i = .init

/-- R146. -/
def Obligations.DeriveCommand : Prop :=
  decode 0x09000000#32 = .ok .derive ∧
  ∀ s : State,
    (s.alen ≠ 32#32 → exec .derive s = .next { s with o := [], olen := 0#32, err := .invalidKeyLength }) ∧
    (s.alen = 32#32 → s.rcv = false → exec .derive s = .next { s with o := [], olen := 0#32, err := .notReady }) ∧
    ∀ mk : MasterKey, s.alen = 32#32 → s.rcv = true → s.a.memRead 0 32 = some mk →
      exec .derive s =
        .next { s with
          rk := keySchedule mk s.rc, rkv := true, o := Memory.holding (blockBytes (keySchedule mk s.rc).toList),
          olen := 160#32, err := .ok }

/-- R164. -/
def Obligations.EncCommand : Prop :=
  decode 0x0A000000#32 = .ok .enc ∧
  ∀ s : State,
    (s.alen ≠ 16#32 → exec .enc s = .next { s with o := [], olen := 0#32, err := .invalidBlockLength }) ∧
    (s.alen = 16#32 → s.rkv = false → exec .enc s = .next { s with o := [], olen := 0#32, err := .notReady }) ∧
    ∀ x : Block, s.alen = 16#32 → s.rkv = true → s.a.memRead 0 16 = some x →
      exec .enc s = .next { s with o := Memory.holding (enc x s.rk).toList, olen := 16#32, err := .ok }

/-- R165. -/
def Obligations.DecCommand : Prop :=
  decode 0x0B000000#32 = .ok .dec ∧
  ∀ s : State,
    (s.alen ≠ 16#32 → exec .dec s = .next { s with o := [], olen := 0#32, err := .invalidBlockLength }) ∧
    (s.alen = 16#32 → s.rkv = false → exec .dec s = .next { s with o := [], olen := 0#32, err := .notReady }) ∧
    ∀ x : Block, s.alen = 16#32 → s.rkv = true → s.a.memRead 0 16 = some x →
      exec .dec s = .next { s with o := Memory.holding (dec x s.rk).toList, olen := 16#32, err := .ok }

/-- R173. -/
def Obligations.GammaCommand : Prop :=
  decode 0x0C000000#32 = .ok .gamma ∧
  ∀ s : State,
    (s.alen = 0#32 ∨ s.alen.toNat % 16 ≠ 0 ∨ s.blen ≠ 8#32 →
      exec .gamma s = .next { s with o := [], olen := 0#32, err := .invalidInputLength }) ∧
    (s.alen ≠ 0#32 → s.alen.toNat % 16 = 0 → s.blen = 8#32 → s.rkv = false →
      exec .gamma s = .next { s with o := [], olen := 0#32, err := .notReady }) ∧
    ∀ (data : List Block) (sync : Sync), s.alen ≠ 0#32 → s.alen.toNat % 16 = 0 → s.blen = 8#32 → s.rkv = true →
      s.a.chunks 0 (s.alen.toNat / 16) = some data → s.b.memRead 0 8 = some sync →
      exec .gamma s =
        .next { s with o := Memory.holding (blockBytes (gamma data sync s.rk)), olen := s.alen, err := .ok }

/-- R177. -/
def Obligations.AddbeCommand : Prop :=
  decode 0x0D000000#32 = .ok .addbe ∧
  ∀ (s : State) (x y : List Byte), s.a.readBytes 0 s.alen.toNat = some x → s.b.readBytes 0 s.blen.toNat = some y →
    exec .addbe s =
      .next { s with o := Memory.holding (addBe x y), olen := BitVec.ofNat 32 (addBe x y).length, err := .ok }

/-- R193. -/
def Obligations.SubkeyCommand : Prop :=
  decode 0x0E000000#32 = .ok .subkey ∧
  ∀ s : State,
    (s.rkv = false → exec .subkey s = .next { s with o := [], olen := 0#32, err := .notReady }) ∧
    (s.rkv = true → exec .subkey s = .next { s with o := Memory.holding (subkey s.rk).toList, olen := 16#32, err := .ok })

/-- R194. -/
def Obligations.TagCommand : Prop :=
  decode 0x0F000000#32 = .ok .tag ∧
  ∀ s : State,
    (s.alen.toNat < 32 ∨ s.alen.toNat % 16 ≠ 0 →
      exec .tag s = .next { s with o := [], olen := 0#32, err := .invalidInputLength }) ∧
    (32 ≤ s.alen.toNat → s.alen.toNat % 16 = 0 → s.rkv = false →
      exec .tag s = .next { s with o := [], olen := 0#32, err := .notReady }) ∧
    ∀ data : List Block, 32 ≤ s.alen.toNat → s.alen.toNat % 16 = 0 → s.rkv = true →
      s.a.chunks 0 (s.alen.toNat / 16) = some data →
      exec .tag s = .next { s with o := Memory.holding (tag data s.rk).toList, olen := 8#32, err := .ok }

/-! The functions -/

/-- R103: commutativity, zero, identity, distribution over XOR. The spec marks this as its own inference ([derived] in R103, but
for commutativity and the zero law, which its source states). -/
def Obligations.FieldProductRingLaws : Prop :=
  ∀ a b x : Byte,
    gfMul a b = gfMul b a ∧ gfMul a 0x00#8 = 0x00#8 ∧ gfMul 0x00#8 b = 0x00#8 ∧ gfMul a 0x01#8 = a ∧ gfMul 0x01#8 a = a ∧
    gfMul a (b ^^^ x) = gfMul a b ^^^ gfMul a x

/-- R103: associativity. The spec marks this as its own inference ([derived] in R103). -/
def Obligations.FieldProductAssociates : Prop := ∀ a b x : Byte, gfMul (gfMul a b) x = gfMul a (gfMul b x)

/-- R103: every non-zero element has exactly one inverse, and there are no zero divisors. The spec marks this as its own
inference ([derived] in R103). -/
def Obligations.FieldHasUniqueInverses : Prop :=
  (∀ a : Byte, a ≠ 0x00#8 → ∃! b : Byte, gfMul a b = 0x01#8) ∧
  ∀ a b : Byte, gfMul a b = 0x00#8 → a = 0x00#8 ∨ b = 0x00#8

/-- R104, R100: gf_mul is the remainder of the polynomial product over GF(2) on division by x^8 + x^7 + x^6 + x + 1. The spec
marks this as its own inference ([derived] in R104). -/
def Obligations.FieldProductIsPolynomialRemainder : Prop :=
  let poly : Byte → Polynomial (ZMod 2) :=
    fun v => ∑ i ∈ Finset.range 8, if v.getLsbD i = true then Polynomial.X ^ i else 0
  ∀ a b : Byte,
    poly (gfMul a b) = (poly a * poly b).modByMonic
      (Polynomial.X ^ 8 + Polynomial.X ^ 7 + Polynomial.X ^ 6 + Polynomial.X + 1)

/-- R112 (with R110, R111): lane by lane, mutual inverses, commuting with reversal, not linear, and their values on the zero
block. The spec marks this as its own inference ([derived] in R112, but for the mutual inverses, which its source states). -/
def Obligations.SubstitutionLaws : Prop :=
  (∀ (x : Block) (i : Nat) (h : i < 16),
    (Machine.sub x)[i] = lookup Rom.PI x[i] ∧ (subInv x)[i] = lookup Rom.PI_INV x[i]) ∧
  (∀ x : Block, subInv (Machine.sub x) = x ∧ Machine.sub (subInv x) = x) ∧
  (∀ x : Block, Machine.sub (rev x) = rev (Machine.sub x) ∧ subInv (rev x) = rev (subInv x)) ∧
  (∃ x y : Block, Machine.sub (xorBlock x y) ≠ xorBlock (Machine.sub x) (Machine.sub y)) ∧
  (∃ x y : Block, subInv (xorBlock x y) ≠ xorBlock (subInv x) (subInv y)) ∧
  (Machine.sub zeroBlock).toList = List.replicate 16 0xFC#8 ∧ (subInv zeroBlock).toList = List.replicate 16 0xA5#8

/-- R128: one step of lin_inv undoes one step of lin and the other way round, and so do the sixteen. The spec marks this as its
own inference ([derived] in R128, but for lin_inv after lin, which its source states). -/
def Obligations.LinearTransformsAreInverse : Prop :=
  ∀ x : Block, linInvStep (linStep x) = x ∧ linStep (linInvStep x) = x ∧ linInv (lin x) = x ∧ lin (linInv x) = x

/-- R128: the four functions are linear over XOR, zero on the zero block, and give the coefficients on the unit blocks. The spec
marks this as its own inference ([derived] in R128). -/
def Obligations.LinearTransformsAreLinear : Prop :=
  (∀ x y : Block,
    lfold (xorBlock x y) = lfold x ^^^ lfold y ∧ ilfold (xorBlock x y) = ilfold x ^^^ ilfold y ∧
    lin (xorBlock x y) = xorBlock (lin x) (lin y) ∧ linInv (xorBlock x y) = xorBlock (linInv x) (linInv y)) ∧
  (lfold zeroBlock = 0x00#8 ∧ ilfold zeroBlock = 0x00#8 ∧ lin zeroBlock = zeroBlock ∧ linInv zeroBlock = zeroBlock) ∧
  ∀ i : Fin 16, lfold (unitBlock i) = Rom.LC[i.val] ∧
    ilfold (unitBlock i) = Rom.LC[(i.val + 1) % 16]'(Nat.mod_lt _ (by decide))

/-- R161, R160: across rounds an inverse round cancels a round, and the reversal may surround the linear transform alone. The
spec marks this as its own inference ([derived] in R161, R160). -/
def Obligations.RoundsCancelAcrossKeys : Prop :=
  (∀ y k k' : Block, fRoundInv (xorBlock (fRound y k) k') k' = xorBlock y k) ∧
  ∀ x k : Block, fRound x k = rev (lin (rev (Machine.sub (xorBlock x k))))

/-- R166: decryption and encryption are exact inverses, for every sequence of ten blocks as keys. The spec marks this as its own
inference ([derived] in R166, but for dec after enc, which its source states). -/
def Obligations.DecryptAndEncryptAreInverse : Prop :=
  ∀ (p : Block) (rk : RoundKeys), dec (enc p rk) rk = p ∧ enc (dec p rk) rk = p

/-- R140, R141: entry k of the constants is made from k + 1, which is its last byte. The spec marks this as its own inference
([derived] in R141). -/
def Obligations.RoundConstantEndsInItsIndex : Prop :=
  (∀ i : Byte, (roundConstant i)[15] = i) ∧
  ∀ (k : Nat) (h : k < 32), rcGen[k] = roundConstant (BitVec.ofNat 8 (k + 1))

/-- R145: the first two round keys are the master key, so different keys never give the same set; each pair of round keys
determines all the others. The spec marks this as its own inference ([derived] in R145). -/
def Obligations.RoundKeyPairsDetermineTheKey : Prop :=
  ∀ (mk mk' : MasterKey) (cs : RoundConstants),
    (keySchedule mk cs)[0].toList ++ (keySchedule mk cs)[1].toList = mk.toList ∧
    (keySchedule mk cs = keySchedule mk' cs → mk = mk') ∧
    ∀ (m : Nat) (h : m < 5),
      (keySchedule mk cs)[2 * m] = (keySchedule mk' cs)[2 * m] →
      (keySchedule mk cs)[2 * m + 1] = (keySchedule mk' cs)[2 * m + 1] → keySchedule mk cs = keySchedule mk' cs

/-- R176: the exact sum in the least number of bytes, one byte 00 when it is zero. -/
def Obligations.AdderGivesMinimalExactSum : Prop :=
  ∀ a b : List Byte,
    be (addBe a b) = be a + be b ∧ 1 ≤ (addBe a b).length ∧ (be a + be b = 0 → addBe a b = [0x00#8]) ∧
    (be a + be b ≠ 0 → (addBe a b).head? ≠ some 0x00#8) ∧
    ∀ n : Nat, 1 ≤ n → be a + be b < 256 ^ n → (addBe a b).length ≤ n

/-- R174: the byte-serial adder computes the same function, which is commutative. The spec marks this as its own inference
([derived] in R174). -/
def Obligations.AdderEqualsByteSerialAdder : Prop :=
  ∀ a b : List Byte, addBe a b = serialAdd a b ∧ addBe a b = addBe b a

/-- R170: inc128(c) is be_16((be(c) + 1) mod 2^128). The spec marks this as its own inference ([derived] in R170). -/
def Obligations.CounterStepAddsOneModulo : Prop :=
  ∀ c : Block, be (inc128 c).toList = (be c.toList + 1) % 2 ^ 128

/-- R171: output chunk n is the XOR of data chunk n with the encryption of be_16((be(sync) * 2^64 + n) mod 2^128). The spec marks
this as its own inference ([derived] in R171). -/
def Obligations.GammaChunkUsesItsCounter : Prop :=
  ∀ (data : List Block) (sync : Sync) (rk : RoundKeys),
    (gamma data sync rk).length = data.length ∧
    ∀ (n : Nat) (h : n < data.length), ∃ ctr : Block,
      be ctr.toList = (be sync.toList * 2 ^ 64 + n) % 2 ^ 128 ∧
      (gamma data sync rk)[n]? = some (xorBlock (enc ctr rk) data[n])

/-- R172: gamma is its own inverse; chunk n depends on data chunk n alone; XOR of the data is XOR of the output, so the output of
zero data is the keystream; a prefix of the data gives a prefix of the output. The spec marks this as its own inference
([derived] in R172, but for the first, which its source states). -/
def Obligations.GammaLaws : Prop :=
  ∀ (d e : List Block) (sync : Sync) (rk : RoundKeys),
    gamma (gamma d sync rk) sync rk = d ∧
    (∀ n : Nat, d[n]? = e[n]? → (gamma d sync rk)[n]? = (gamma e sync rk)[n]?) ∧
    (d.length = e.length → gamma (List.zipWith xorBlock d e) sync rk = List.zipWith xorBlock (gamma d sync rk) e) ∧
    (gamma d sync rk = List.zipWith xorBlock (gamma (List.replicate d.length zeroBlock) sync rk) d) ∧
    (gamma (d ++ e) sync rk).take d.length = gamma d sync rk

/-- R190: the shift doubles the big-endian value modulo 2^128; B128 is XORed in exactly when the last byte after the shift is not
zero. -/
def Obligations.DoublingTestsTheShiftedLastByte : Prop :=
  ∀ r : Block,
    be (shiftLeft1 r).toList = 2 * be r.toList % 2 ^ 128 ∧
    dbl r = if (shiftLeft1 r)[15] = 0x00#8 then shiftLeft1 r else xorBlock (shiftLeft1 r) Rom.B128

/-- R195: the XOR is skipped for a last byte 00 or 80 and for no other, whatever the other bytes are. The spec marks this as its
own inference ([derived] in R195). -/
def Obligations.DoublingSkipsTheXorForTwoLastBytes : Prop :=
  ∀ r : Block,
    (dbl r = shiftLeft1 r ↔ r[15] = 0x00#8 ∨ r[15] = 0x80#8) ∧
    (r[15] ≠ 0x00#8 → r[15] ≠ 0x80#8 → dbl r = xorBlock (shiftLeft1 r) Rom.B128)

/-- R192: the tag of a first chunk, middle chunks and a last chunk. -/
def Obligations.TagChainsTheChunks : Prop :=
  ∀ (first last : Block) (middle : List Block) (rk : RoundKeys),
    (tag (first :: (middle ++ [last])) rk).toList =
      (enc (xorBlock (xorBlock (middle.foldl (fun acc x => enc (xorBlock acc x) rk) (enc first rk)) last) (subkey rk))
        rk).toList.take 8
end

