-- ==== Sys2Proof/Laws/Bytes.lean ====
section
/-! SUPPORT. Byte sequences: the elements of what ofList, xor and rev build, and the value of a concatenation. -/

namespace Sys2Proof.Machine

@[simp] theorem toList_ofList {n : Nat} (l : List Byte) (h : l.length = n) : (ofList l h).toList = l := rfl

theorem ofList_toList {n : Nat} (v : Vector Byte n) : ofList v.toList (by simp) = v := rfl

/-- Two fixed-length sequences with the same list are equal. -/
theorem toList_inj {n : Nat} {v w : Vector Byte n} (h : v.toList = w.toList) : v = w := Vector.toList_inj.1 h

@[simp] theorem getElem_ofList {n : Nat} (l : List Byte) (h : l.length = n) (i : Nat) (hi : i < n) :
    (ofList l h)[i] = l[i]'(h ▸ hi) := rfl

@[simp] theorem getElem_xorBlock (x y : Block) (i : Nat) (hi : i < 16) : (xorBlock x y)[i] = x[i] ^^^ y[i] := by
  simp [xorBlock]

@[simp] theorem getElem_rev (x : Block) (i : Nat) (hi : i < 16) : (rev x)[i] = x[15 - i] := by
  simp [rev, List.getElem_reverse]

theorem toList_xorBlock (x y : Block) : (xorBlock x y).toList = List.zipWith (· ^^^ ·) x.toList y.toList := rfl

theorem toList_rev (x : Block) : (rev x).toList = x.toList.reverse := rfl

@[simp] theorem rev_rev (x : Block) : rev (rev x) = x := toList_inj (by simp [toList_rev])

theorem xorBlock_comm (x y : Block) : xorBlock x y = xorBlock y x :=
  Vector.ext fun i hi => by simp [BitVec.xor_comm]

theorem xorBlock_assoc (x y z : Block) : xorBlock (xorBlock x y) z = xorBlock x (xorBlock y z) :=
  Vector.ext fun i hi => by simp [BitVec.xor_assoc]

@[simp] theorem xorBlock_cancel_right (x y : Block) : xorBlock (xorBlock x y) y = x :=
  Vector.ext fun i hi => by simp

@[simp] theorem xorBlock_cancel_left (x y : Block) : xorBlock x (xorBlock x y) = y :=
  Vector.ext fun i hi => by simp

theorem rev_xorBlock (x y : Block) : rev (xorBlock x y) = xorBlock (rev x) (rev y) :=
  Vector.ext fun i hi => by simp

theorem be_append (s t : List Byte) : be (s ++ t) = be s * 256 ^ t.length + be t := by
  induction s with
  | nil => simp [be]
  | cons x s ih => simp only [List.cons_append, be, ih, List.length_append, Nat.pow_add, Nat.add_mul]; ring

theorem be_lt (s : List Byte) : be s < 256 ^ s.length := by
  induction s with
  | nil => simp [be]
  | cons x s ih =>
    have hx : x.toNat ≤ 255 := by have := x.isLt; omega
    have := Nat.mul_le_mul_right (256 ^ s.length) hx
    simp only [be, List.length_cons, Nat.pow_succ]
    omega

/-- `be_n(v)` has the value `v`, for `v < 256^n` (R13). -/
theorem be_beN {n v : Nat} (h : v < 256 ^ n) : be (beN n v) = v := by
  suffices H : ∀ n v, be (beN n v) = v % 256 ^ n by rw [H, Nat.mod_eq_of_lt h]
  intro n
  induction n with
  | zero => intro v; simp [beN, be, Nat.mod_one]
  | succ n ih =>
    intro v
    simp only [beN, be, ih, beN_length, BitVec.toNat_ofNat, Nat.pow_succ]
    have h := Nat.mod_mul (x := v) (a := 256 ^ n) (b := 256)
    rw [h, Nat.add_comm, Nat.mul_comm]

@[simp] theorem blockBytes_length (l : List Block) : (blockBytes l).length = 16 * l.length := by
  induction l with
  | nil => rfl
  | cons x l ih => simp [blockBytes, List.flatMap_cons] at ih ⊢; omega

end Sys2Proof.Machine
end

