-- ==== Sys2Proof/Laws/Config.lean ====
section
/-! SUPPORT. The bounds of BUF_MAX (spec/00_scope.md R10, log 6, log 7). -/

namespace Sys2Proof

theorem Config.bufMax_ge : 512 ≤ Config.bufMax := Nat.le_add_left _ _

theorem Config.bufMax_lt : Config.bufMax + 1 < 2 ^ 32 := by
  unfold Config.bufMax
  omega

theorem Config.bufMax_mod : Config.bufMax % 16 = 0 := by
  unfold Config.bufMax
  omega

end Sys2Proof
end

