-- ==== Sys2Proof/Laws/Operands.lean ====
section
/-! SUPPORT. For each operand form, everything it can do, said once: it raises the error of its check, or it has its result, or it
finds a byte without a value. -/

namespace Sys2Proof.Machine

theorem onBlock_cases (f : Block → List Byte) (s : State) :
    (s.alen ≠ 16#32 ∧ onBlock f s = .next (s.raise .invalidBlockLength)) ∨
    (s.alen = 16#32 ∧ ∃ x, s.a.memRead 0 16 = some x ∧ onBlock f s = .next (s.succeed (f x))) ∨
    (s.alen = 16#32 ∧ s.a.memRead 0 16 = none ∧ onBlock f s = .fault .byteHoldsNoValue) := by
  by_cases h : s.alen = 16#32
  · cases hx : s.a.memRead 0 16 <;> simp [onBlock, badBlockLength, h, hx]
  · simp [onBlock, badBlockLength, h]

theorem onKeyedBlock_cases (f : Block → RoundKeys → List Byte) (s : State) :
    (s.alen ≠ 16#32 ∧ onKeyedBlock f s = .next (s.raise .invalidBlockLength)) ∨
    (s.alen = 16#32 ∧ s.rkv = false ∧ onKeyedBlock f s = .next (s.raise .notReady)) ∨
    (s.alen = 16#32 ∧ s.rkv = true ∧
      ∃ x, s.a.memRead 0 16 = some x ∧ onKeyedBlock f s = .next (s.succeed (f x s.rk))) ∨
    (s.alen = 16#32 ∧ s.rkv = true ∧ s.a.memRead 0 16 = none ∧ onKeyedBlock f s = .fault .byteHoldsNoValue) := by
  by_cases h : s.alen = 16#32
  · cases hk : s.rkv
    · simp [onKeyedBlock, badBlockLength, h, hk]
    · cases hx : s.a.memRead 0 16 <;> simp [onKeyedBlock, badBlockLength, h, hk, hx]
  · simp [onKeyedBlock, badBlockLength, h]

theorem onKeys_cases (f : RoundKeys → List Byte) (s : State) :
    (s.rkv = false ∧ onKeys f s = .next (s.raise .notReady)) ∨
    (s.rkv = true ∧ onKeys f s = .next (s.succeed (f s.rk))) := by
  cases hk : s.rkv <;> simp [onKeys, hk]

theorem onMasterKey_cases (f : MasterKey → RoundConstants → RoundKeys) (s : State) :
    (s.alen ≠ 32#32 ∧ onMasterKey f s = .next (s.raise .invalidKeyLength)) ∨
    (s.alen = 32#32 ∧ s.rcv = false ∧ onMasterKey f s = .next (s.raise .notReady)) ∨
    (s.alen = 32#32 ∧ s.rcv = true ∧ ∃ mk, s.a.memRead 0 32 = some mk ∧
      onMasterKey f s = .next ((s.setRoundKeys (f mk s.rc)).succeed (blockBytes (f mk s.rc).toList))) ∨
    (s.alen = 32#32 ∧ s.rcv = true ∧ s.a.memRead 0 32 = none ∧ onMasterKey f s = .fault .byteHoldsNoValue) := by
  by_cases h : s.alen = 32#32
  · cases hk : s.rcv
    · simp [onMasterKey, badKeyLength, h, hk]
    · cases hx : s.a.memRead 0 32 <;> simp [onMasterKey, badKeyLength, h, hk, hx]
  · simp [onMasterKey, badKeyLength, h]

theorem badGammaLength_eq_false {s : State} :
    badGammaLength s = false ↔ s.alen ≠ 0#32 ∧ s.alen.toNat % 16 = 0 ∧ s.blen = 8#32 := by
  simp [badGammaLength, and_assoc]

theorem badTagLength_eq_false {s : State} :
    badTagLength s = false ↔ 32 ≤ s.alen.toNat ∧ s.alen.toNat % 16 = 0 := by
  simp [badTagLength]

theorem onDataAndSync_cases (f : List Block → Sync → RoundKeys → List Byte) (s : State) :
    (badGammaLength s = true ∧ onDataAndSync f s = .next (s.raise .invalidInputLength)) ∨
    (badGammaLength s = false ∧ s.rkv = false ∧ onDataAndSync f s = .next (s.raise .notReady)) ∨
    (badGammaLength s = false ∧ s.rkv = true ∧ ∃ data sync, s.a.chunks 0 (s.alen.toNat / 16) = some data ∧
      s.b.memRead 0 8 = some sync ∧ onDataAndSync f s = .next (s.succeed (f data sync s.rk))) ∨
    (badGammaLength s = false ∧ s.rkv = true ∧
      (s.a.chunks 0 (s.alen.toNat / 16) = none ∨ s.b.memRead 0 8 = none) ∧
      onDataAndSync f s = .fault .byteHoldsNoValue) := by
  cases h : badGammaLength s
  · cases hk : s.rkv
    · simp [onDataAndSync, h, hk]
    · cases hx : s.a.chunks 0 (s.alen.toNat / 16) <;> cases hy : s.b.memRead 0 8 <;>
        simp [onDataAndSync, h, hk, hx, hy]
  · simp [onDataAndSync, h]

theorem onMessage_cases (f : List Block → RoundKeys → List Byte) (s : State) :
    (badTagLength s = true ∧ onMessage f s = .next (s.raise .invalidInputLength)) ∨
    (badTagLength s = false ∧ s.rkv = false ∧ onMessage f s = .next (s.raise .notReady)) ∨
    (badTagLength s = false ∧ s.rkv = true ∧ ∃ data, s.a.chunks 0 (s.alen.toNat / 16) = some data ∧
      onMessage f s = .next (s.succeed (f data s.rk))) ∨
    (badTagLength s = false ∧ s.rkv = true ∧ s.a.chunks 0 (s.alen.toNat / 16) = none ∧
      onMessage f s = .fault .byteHoldsNoValue) := by
  cases h : badTagLength s
  · cases hk : s.rkv
    · simp [onMessage, h, hk]
    · cases hx : s.a.chunks 0 (s.alen.toNat / 16) <;> simp [onMessage, h, hk, hx]
  · simp [onMessage, h]

theorem onTwoSequences_cases (f : List Byte → List Byte → List Byte) (s : State) :
    (∃ x y, s.a.readBytes 0 s.alen.toNat = some x ∧ s.b.readBytes 0 s.blen.toNat = some y ∧
      onTwoSequences f s = .next (s.succeed (f x y))) ∨
    ((s.a.readBytes 0 s.alen.toNat = none ∨ s.b.readBytes 0 s.blen.toNat = none) ∧
      onTwoSequences f s = .fault .byteHoldsNoValue) := by
  cases hx : s.a.readBytes 0 s.alen.toNat <;> cases hy : s.b.readBytes 0 s.blen.toNat <;>
    simp [onTwoSequences, hx, hy]

end Sys2Proof.Machine
end

