-- ==== Sys2Proof/Laws/State.lean ====
section
/-! SUPPORT. Beside State: one lemma per field per named update, each true by rfl. -/

namespace Sys2Proof.Machine

variable (s : State)

/-! succeed -/

@[simp] theorem State.succeed_rc (out : List Byte) : (s.succeed out).rc = s.rc := rfl
@[simp] theorem State.succeed_rcv (out : List Byte) : (s.succeed out).rcv = s.rcv := rfl
@[simp] theorem State.succeed_rk (out : List Byte) : (s.succeed out).rk = s.rk := rfl
@[simp] theorem State.succeed_rkv (out : List Byte) : (s.succeed out).rkv = s.rkv := rfl
@[simp] theorem State.succeed_a (out : List Byte) : (s.succeed out).a = s.a := rfl
@[simp] theorem State.succeed_alen (out : List Byte) : (s.succeed out).alen = s.alen := rfl
@[simp] theorem State.succeed_b (out : List Byte) : (s.succeed out).b = s.b := rfl
@[simp] theorem State.succeed_blen (out : List Byte) : (s.succeed out).blen = s.blen := rfl
@[simp] theorem State.succeed_o (out : List Byte) : (s.succeed out).o = Memory.holding out := rfl
@[simp] theorem State.succeed_olen (out : List Byte) : (s.succeed out).olen = BitVec.ofNat 32 out.length := rfl
@[simp] theorem State.succeed_err (out : List Byte) : (s.succeed out).err = .ok := rfl
@[simp] theorem State.succeed_inputs (out : List Byte) : (s.succeed out).inputs = s.inputs := rfl
@[simp] theorem State.succeed_replies (out : List Byte) : (s.succeed out).replies = s.replies := rfl

/-! raise -/

@[simp] theorem State.raise_rc (e : ErrCode) : (s.raise e).rc = s.rc := rfl
@[simp] theorem State.raise_rcv (e : ErrCode) : (s.raise e).rcv = s.rcv := rfl
@[simp] theorem State.raise_rk (e : ErrCode) : (s.raise e).rk = s.rk := rfl
@[simp] theorem State.raise_rkv (e : ErrCode) : (s.raise e).rkv = s.rkv := rfl
@[simp] theorem State.raise_a (e : ErrCode) : (s.raise e).a = s.a := rfl
@[simp] theorem State.raise_alen (e : ErrCode) : (s.raise e).alen = s.alen := rfl
@[simp] theorem State.raise_b (e : ErrCode) : (s.raise e).b = s.b := rfl
@[simp] theorem State.raise_blen (e : ErrCode) : (s.raise e).blen = s.blen := rfl
@[simp] theorem State.raise_o (e : ErrCode) : (s.raise e).o = [] := rfl
@[simp] theorem State.raise_olen (e : ErrCode) : (s.raise e).olen = 0#32 := rfl
@[simp] theorem State.raise_err (e : ErrCode) : (s.raise e).err = e := rfl
@[simp] theorem State.raise_inputs (e : ErrCode) : (s.raise e).inputs = s.inputs := rfl
@[simp] theorem State.raise_replies (e : ErrCode) : (s.raise e).replies = s.replies := rfl

/-! setRoundConstants -/

@[simp] theorem State.setRoundConstants_rc (c : RoundConstants) : (s.setRoundConstants c).rc = c := rfl
@[simp] theorem State.setRoundConstants_rcv (c : RoundConstants) : (s.setRoundConstants c).rcv = true := rfl
@[simp] theorem State.setRoundConstants_rk (c : RoundConstants) : (s.setRoundConstants c).rk = s.rk := rfl
@[simp] theorem State.setRoundConstants_rkv (c : RoundConstants) : (s.setRoundConstants c).rkv = s.rkv := rfl
@[simp] theorem State.setRoundConstants_a (c : RoundConstants) : (s.setRoundConstants c).a = s.a := rfl
@[simp] theorem State.setRoundConstants_alen (c : RoundConstants) : (s.setRoundConstants c).alen = s.alen := rfl
@[simp] theorem State.setRoundConstants_b (c : RoundConstants) : (s.setRoundConstants c).b = s.b := rfl
@[simp] theorem State.setRoundConstants_blen (c : RoundConstants) : (s.setRoundConstants c).blen = s.blen := rfl
@[simp] theorem State.setRoundConstants_o (c : RoundConstants) : (s.setRoundConstants c).o = s.o := rfl
@[simp] theorem State.setRoundConstants_olen (c : RoundConstants) : (s.setRoundConstants c).olen = s.olen := rfl
@[simp] theorem State.setRoundConstants_err (c : RoundConstants) : (s.setRoundConstants c).err = s.err := rfl
@[simp] theorem State.setRoundConstants_inputs (c : RoundConstants) : (s.setRoundConstants c).inputs = s.inputs := rfl
@[simp] theorem State.setRoundConstants_replies (c : RoundConstants) : (s.setRoundConstants c).replies = s.replies := rfl

/-! setRoundKeys -/

@[simp] theorem State.setRoundKeys_rc (k : RoundKeys) : (s.setRoundKeys k).rc = s.rc := rfl
@[simp] theorem State.setRoundKeys_rcv (k : RoundKeys) : (s.setRoundKeys k).rcv = s.rcv := rfl
@[simp] theorem State.setRoundKeys_rk (k : RoundKeys) : (s.setRoundKeys k).rk = k := rfl
@[simp] theorem State.setRoundKeys_rkv (k : RoundKeys) : (s.setRoundKeys k).rkv = true := rfl
@[simp] theorem State.setRoundKeys_a (k : RoundKeys) : (s.setRoundKeys k).a = s.a := rfl
@[simp] theorem State.setRoundKeys_alen (k : RoundKeys) : (s.setRoundKeys k).alen = s.alen := rfl
@[simp] theorem State.setRoundKeys_b (k : RoundKeys) : (s.setRoundKeys k).b = s.b := rfl
@[simp] theorem State.setRoundKeys_blen (k : RoundKeys) : (s.setRoundKeys k).blen = s.blen := rfl
@[simp] theorem State.setRoundKeys_o (k : RoundKeys) : (s.setRoundKeys k).o = s.o := rfl
@[simp] theorem State.setRoundKeys_olen (k : RoundKeys) : (s.setRoundKeys k).olen = s.olen := rfl
@[simp] theorem State.setRoundKeys_err (k : RoundKeys) : (s.setRoundKeys k).err = s.err := rfl
@[simp] theorem State.setRoundKeys_inputs (k : RoundKeys) : (s.setRoundKeys k).inputs = s.inputs := rfl
@[simp] theorem State.setRoundKeys_replies (k : RoundKeys) : (s.setRoundKeys k).replies = s.replies := rfl

/-! setA -/

@[simp] theorem State.setA_rc (bytes : List Byte) : (s.setA bytes).rc = s.rc := rfl
@[simp] theorem State.setA_rcv (bytes : List Byte) : (s.setA bytes).rcv = s.rcv := rfl
@[simp] theorem State.setA_rk (bytes : List Byte) : (s.setA bytes).rk = s.rk := rfl
@[simp] theorem State.setA_rkv (bytes : List Byte) : (s.setA bytes).rkv = s.rkv := rfl
@[simp] theorem State.setA_a (bytes : List Byte) : (s.setA bytes).a = Memory.holding bytes := rfl
@[simp] theorem State.setA_alen (bytes : List Byte) : (s.setA bytes).alen = BitVec.ofNat 32 bytes.length := rfl
@[simp] theorem State.setA_b (bytes : List Byte) : (s.setA bytes).b = s.b := rfl
@[simp] theorem State.setA_blen (bytes : List Byte) : (s.setA bytes).blen = s.blen := rfl
@[simp] theorem State.setA_o (bytes : List Byte) : (s.setA bytes).o = s.o := rfl
@[simp] theorem State.setA_olen (bytes : List Byte) : (s.setA bytes).olen = s.olen := rfl
@[simp] theorem State.setA_err (bytes : List Byte) : (s.setA bytes).err = s.err := rfl
@[simp] theorem State.setA_inputs (bytes : List Byte) : (s.setA bytes).inputs = s.inputs := rfl
@[simp] theorem State.setA_replies (bytes : List Byte) : (s.setA bytes).replies = s.replies := rfl

/-! setB -/

@[simp] theorem State.setB_rc (bytes : List Byte) : (s.setB bytes).rc = s.rc := rfl
@[simp] theorem State.setB_rcv (bytes : List Byte) : (s.setB bytes).rcv = s.rcv := rfl
@[simp] theorem State.setB_rk (bytes : List Byte) : (s.setB bytes).rk = s.rk := rfl
@[simp] theorem State.setB_rkv (bytes : List Byte) : (s.setB bytes).rkv = s.rkv := rfl
@[simp] theorem State.setB_a (bytes : List Byte) : (s.setB bytes).a = s.a := rfl
@[simp] theorem State.setB_alen (bytes : List Byte) : (s.setB bytes).alen = s.alen := rfl
@[simp] theorem State.setB_b (bytes : List Byte) : (s.setB bytes).b = Memory.holding bytes := rfl
@[simp] theorem State.setB_blen (bytes : List Byte) : (s.setB bytes).blen = BitVec.ofNat 32 bytes.length := rfl
@[simp] theorem State.setB_o (bytes : List Byte) : (s.setB bytes).o = s.o := rfl
@[simp] theorem State.setB_olen (bytes : List Byte) : (s.setB bytes).olen = s.olen := rfl
@[simp] theorem State.setB_err (bytes : List Byte) : (s.setB bytes).err = s.err := rfl
@[simp] theorem State.setB_inputs (bytes : List Byte) : (s.setB bytes).inputs = s.inputs := rfl
@[simp] theorem State.setB_replies (bytes : List Byte) : (s.setB bytes).replies = s.replies := rfl

/-! reply -/

@[simp] theorem State.reply_rc (r : HostReply) : (s.reply r).rc = s.rc := rfl
@[simp] theorem State.reply_rcv (r : HostReply) : (s.reply r).rcv = s.rcv := rfl
@[simp] theorem State.reply_rk (r : HostReply) : (s.reply r).rk = s.rk := rfl
@[simp] theorem State.reply_rkv (r : HostReply) : (s.reply r).rkv = s.rkv := rfl
@[simp] theorem State.reply_a (r : HostReply) : (s.reply r).a = s.a := rfl
@[simp] theorem State.reply_alen (r : HostReply) : (s.reply r).alen = s.alen := rfl
@[simp] theorem State.reply_b (r : HostReply) : (s.reply r).b = s.b := rfl
@[simp] theorem State.reply_blen (r : HostReply) : (s.reply r).blen = s.blen := rfl
@[simp] theorem State.reply_o (r : HostReply) : (s.reply r).o = s.o := rfl
@[simp] theorem State.reply_olen (r : HostReply) : (s.reply r).olen = s.olen := rfl
@[simp] theorem State.reply_err (r : HostReply) : (s.reply r).err = s.err := rfl
@[simp] theorem State.reply_inputs (r : HostReply) : (s.reply r).inputs = s.inputs := rfl
@[simp] theorem State.reply_replies (r : HostReply) : (s.reply r).replies = s.replies ++ [r] := rfl

/-! setInputs -/

@[simp] theorem State.setInputs_rc (l : List Input) : (s.setInputs l).rc = s.rc := rfl
@[simp] theorem State.setInputs_rcv (l : List Input) : (s.setInputs l).rcv = s.rcv := rfl
@[simp] theorem State.setInputs_rk (l : List Input) : (s.setInputs l).rk = s.rk := rfl
@[simp] theorem State.setInputs_rkv (l : List Input) : (s.setInputs l).rkv = s.rkv := rfl
@[simp] theorem State.setInputs_a (l : List Input) : (s.setInputs l).a = s.a := rfl
@[simp] theorem State.setInputs_alen (l : List Input) : (s.setInputs l).alen = s.alen := rfl
@[simp] theorem State.setInputs_b (l : List Input) : (s.setInputs l).b = s.b := rfl
@[simp] theorem State.setInputs_blen (l : List Input) : (s.setInputs l).blen = s.blen := rfl
@[simp] theorem State.setInputs_o (l : List Input) : (s.setInputs l).o = s.o := rfl
@[simp] theorem State.setInputs_olen (l : List Input) : (s.setInputs l).olen = s.olen := rfl
@[simp] theorem State.setInputs_err (l : List Input) : (s.setInputs l).err = s.err := rfl
@[simp] theorem State.setInputs_inputs (l : List Input) : (s.setInputs l).inputs = l := rfl
@[simp] theorem State.setInputs_replies (l : List Input) : (s.setInputs l).replies = s.replies := rfl

/-! resetCore -/

@[simp] theorem State.resetCore_rc : (s.resetCore).rc = State.reset.rc := rfl
@[simp] theorem State.resetCore_rcv : (s.resetCore).rcv = State.reset.rcv := rfl
@[simp] theorem State.resetCore_rk : (s.resetCore).rk = State.reset.rk := rfl
@[simp] theorem State.resetCore_rkv : (s.resetCore).rkv = State.reset.rkv := rfl
@[simp] theorem State.resetCore_a : (s.resetCore).a = State.reset.a := rfl
@[simp] theorem State.resetCore_alen : (s.resetCore).alen = State.reset.alen := rfl
@[simp] theorem State.resetCore_b : (s.resetCore).b = State.reset.b := rfl
@[simp] theorem State.resetCore_blen : (s.resetCore).blen = State.reset.blen := rfl
@[simp] theorem State.resetCore_o : (s.resetCore).o = State.reset.o := rfl
@[simp] theorem State.resetCore_olen : (s.resetCore).olen = State.reset.olen := rfl
@[simp] theorem State.resetCore_err : (s.resetCore).err = State.reset.err := rfl
@[simp] theorem State.resetCore_inputs : (s.resetCore).inputs = s.inputs := rfl
@[simp] theorem State.resetCore_replies : (s.resetCore).replies = s.replies := rfl

/-! withIssue -/

@[simp] theorem State.withIssue_rc (w : Word) : (s.withIssue w).rc = s.rc := rfl
@[simp] theorem State.withIssue_rcv (w : Word) : (s.withIssue w).rcv = s.rcv := rfl
@[simp] theorem State.withIssue_rk (w : Word) : (s.withIssue w).rk = s.rk := rfl
@[simp] theorem State.withIssue_rkv (w : Word) : (s.withIssue w).rkv = s.rkv := rfl
@[simp] theorem State.withIssue_a (w : Word) : (s.withIssue w).a = s.a := rfl
@[simp] theorem State.withIssue_alen (w : Word) : (s.withIssue w).alen = s.alen := rfl
@[simp] theorem State.withIssue_b (w : Word) : (s.withIssue w).b = s.b := rfl
@[simp] theorem State.withIssue_blen (w : Word) : (s.withIssue w).blen = s.blen := rfl
@[simp] theorem State.withIssue_o (w : Word) : (s.withIssue w).o = s.o := rfl
@[simp] theorem State.withIssue_olen (w : Word) : (s.withIssue w).olen = s.olen := rfl
@[simp] theorem State.withIssue_err (w : Word) : (s.withIssue w).err = s.err := rfl
@[simp] theorem State.withIssue_inputs (w : Word) : (s.withIssue w).inputs = .host (.issue w) :: s.inputs := rfl
@[simp] theorem State.withIssue_replies (w : Word) : (s.withIssue w).replies = s.replies := rfl

end Sys2Proof.Machine
end

