-- ==== Sys2Proof/Laws/Run.lean ====
section
/-! SUPPORT. What the outside does is a parameter of the core's step relation (spec/10_state.md R37): no command and no input depends
on the fields inputs and replies, and a run of step is the core's run under the sequence in store. -/

namespace Sys2Proof.Machine

/-- The same core with another outside. -/
def State.withOutside (s : State) (l : List Input) (r : List HostReply) : State := { s with inputs := l, replies := r }

variable (s : State) (l : List Input) (r : List HostReply)

@[simp] theorem State.withOutside_rcv : (s.withOutside l r).rcv = s.rcv := rfl
@[simp] theorem State.withOutside_rkv : (s.withOutside l r).rkv = s.rkv := rfl
@[simp] theorem State.withOutside_a : (s.withOutside l r).a = s.a := rfl
@[simp] theorem State.withOutside_alen : (s.withOutside l r).alen = s.alen := rfl
@[simp] theorem State.withOutside_b : (s.withOutside l r).b = s.b := rfl
@[simp] theorem State.withOutside_blen : (s.withOutside l r).blen = s.blen := rfl
@[simp] theorem State.withOutside_o : (s.withOutside l r).o = s.o := rfl
@[simp] theorem State.withOutside_olen : (s.withOutside l r).olen = s.olen := rfl
@[simp] theorem State.withOutside_replies : (s.withOutside l r).replies = r := rfl

/-! No operand form depends on the outside or changes it -/

theorem onBlock_withOutside (f : Block → List Byte) : onBlock f (s.withOutside l r) = mapNext (·.withOutside l r) (onBlock f s) := by
  unfold onBlock
  change (if badBlockLength s then _ else _) = _
  cases badBlockLength s with
  | true => rfl
  | false => rw [State.withOutside_a]; cases s.a.memRead 0 16 <;> rfl

theorem onKeyedBlock_withOutside (f : Block → RoundKeys → List Byte) :
    onKeyedBlock f (s.withOutside l r) = mapNext (·.withOutside l r) (onKeyedBlock f s) := by
  unfold onKeyedBlock
  change (if badBlockLength s then _ else if !s.rkv then _ else _) = _
  cases badBlockLength s with
  | true => rfl
  | false =>
    cases s.rkv with
    | false => rfl
    | true => rw [State.withOutside_a]; cases s.a.memRead 0 16 <;> rfl

theorem onKeys_withOutside (f : RoundKeys → List Byte) : onKeys f (s.withOutside l r) = mapNext (·.withOutside l r) (onKeys f s) := by
  unfold onKeys
  change (if !s.rkv then _ else _) = _
  cases s.rkv <;> rfl

theorem onMasterKey_withOutside (f : MasterKey → RoundConstants → RoundKeys) :
    onMasterKey f (s.withOutside l r) = mapNext (·.withOutside l r) (onMasterKey f s) := by
  unfold onMasterKey
  change (if badKeyLength s then _ else if !s.rcv then _ else _) = _
  cases badKeyLength s with
  | true => rfl
  | false =>
    cases s.rcv with
    | false => rfl
    | true => rw [State.withOutside_a]; cases s.a.memRead 0 32 <;> rfl

theorem onDataAndSync_withOutside (f : List Block → Sync → RoundKeys → List Byte) :
    onDataAndSync f (s.withOutside l r) = mapNext (·.withOutside l r) (onDataAndSync f s) := by
  unfold onDataAndSync
  change (if badGammaLength s then _ else if !s.rkv then _ else _) = _
  cases badGammaLength s with
  | true => rfl
  | false =>
    cases s.rkv with
    | false => rfl
    | true =>
      rw [State.withOutside_a, State.withOutside_alen, State.withOutside_b]
      cases s.a.chunks 0 (s.alen.toNat / 16) <;> cases s.b.memRead 0 8 <;> rfl

theorem onMessage_withOutside (f : List Block → RoundKeys → List Byte) :
    onMessage f (s.withOutside l r) = mapNext (·.withOutside l r) (onMessage f s) := by
  unfold onMessage
  change (if badTagLength s then _ else if !s.rkv then _ else _) = _
  cases badTagLength s with
  | true => rfl
  | false =>
    cases s.rkv with
    | false => rfl
    | true =>
      rw [State.withOutside_a, State.withOutside_alen]
      cases s.a.chunks 0 (s.alen.toNat / 16) <;> rfl

theorem onTwoSequences_withOutside (f : List Byte → List Byte → List Byte) :
    onTwoSequences f (s.withOutside l r) = mapNext (·.withOutside l r) (onTwoSequences f s) := by
  unfold onTwoSequences
  rw [State.withOutside_a, State.withOutside_alen, State.withOutside_b, State.withOutside_blen]
  cases s.a.readBytes 0 s.alen.toNat <;> cases s.b.readBytes 0 s.blen.toNat <;> rfl

/-- No command depends on the outside or changes it. -/
theorem exec_withOutside (i : Instr) : exec i (s.withOutside l r) = mapNext (·.withOutside l r) (exec i s) := by
  cases i with
  | gfmul a b => rfl
  | lfold => exact onBlock_withOutside s l r _
  | ilfold => exact onBlock_withOutside s l r _
  | lfwd => exact onBlock_withOutside s l r _
  | linv => exact onBlock_withOutside s l r _
  | sub => exact onBlock_withOutside s l r _
  | isub => exact onBlock_withOutside s l r _
  | init =>
    have h : ∀ (k : RoundConstants) (out : List Byte),
        ((s.withOutside l r).setRoundConstants k).succeed out = ((s.setRoundConstants k).succeed out).withOutside l r := fun _ _ => rfl
    exact congrArg Host.Outcome.next (h _ _)
  | derive => exact onMasterKey_withOutside s l r _
  | enc => exact onKeyedBlock_withOutside s l r (fun x rk => (enc x rk).toList)
  | dec => exact onKeyedBlock_withOutside s l r (fun x rk => (dec x rk).toList)
  | gamma => exact onDataAndSync_withOutside s l r (fun data sync rk => blockBytes (gamma data sync rk))
  | addbe => exact onTwoSequences_withOutside s l r _
  | subkey => exact onKeys_withOutside s l r (fun rk => (subkey rk).toList)
  | tag => exact onMessage_withOutside s l r (fun data rk => (tag data rk).toList)

/-- A command does to a core with its outside what it does to the core alone. -/
theorem exec_eq_alone (i : Instr) :
    exec i s =
      mapNext (rejoin s.inputs s.replies) (mapNext (fun t => (t.toCoreState, t.replies)) (exec i s.toCoreState.alone)) := by
  have h : exec i s = _ := exec_withOutside s.toCoreState.alone s.inputs s.replies i
  have e : exec i s.toCoreState.alone = _ := exec_withOutside s.toCoreState.alone [] [] i
  rw [h]
  cases hx : exec i s.toCoreState.alone with
  | next t =>
    rw [hx] at e
    have ht : t.replies = [] := congrArg State.replies (Host.Outcome.next.inj e)
    simp [mapNext, rejoin, ht, State.withOutside]
  | fault q => rfl
  | refused q => rfl

/-- What anything from outside does to a core with its outside: the core's step relation, and the replies one after the other. -/
theorem perform_eq_coreStep (x : Input) :
    perform x s = mapNext (rejoin s.inputs s.replies) (coreStep x s.toCoreState) := by
  have still (t : State) (h : t.replies = s.replies ++ []) : t = { t with replies := s.replies ++ [] } := by rw [← h]
  cases x with
  | reset => exact congrArg Host.Outcome.next (still _ (List.append_nil _).symm)
  | host act =>
    cases act with
    | issue w =>
      simp only [perform, hostAct, hostIssue, coreStep]
      cases decode w with
      | ok i => exact exec_eq_alone s i
      | error e => exact congrArg Host.Outcome.next (still _ (List.append_nil _).symm)
    | loadA bytes =>
      simp only [perform, hostAct, hostLoadA, coreStep]
      by_cases h : bytes.length ≤ Config.bufMax
      · rw [if_pos h, if_pos h]; exact congrArg Host.Outcome.next (still _ (List.append_nil _).symm)
      · rw [if_neg h, if_neg h]; rfl
    | loadB bytes =>
      simp only [perform, hostAct, hostLoadB, coreStep]
      by_cases h : bytes.length ≤ Config.bufMax
      · rw [if_pos h, if_pos h]; exact congrArg Host.Outcome.next (still _ (List.append_nil _).symm)
      · rw [if_neg h, if_neg h]; rfl
    | readO =>
      change (match s.o.readBytes 0 s.olen.toNat with | some b => _ | none => _) = mapNext _ (mapNext _
        (match s.o.readBytes 0 s.olen.toNat with | some b => _ | none => _))
      cases s.o.readBytes 0 s.olen.toNat <;> rfl
    | readStatus => rfl

/-- A step performs the oldest input in store. -/
theorem step_cons {x : Input} {rest : List Input} (h : s.inputs = x :: rest) : step s = perform x (s.setInputs rest) := by
  rw [perform_eq_coreStep]
  simp only [step, takeInput, h]
  rfl

/-- As many steps as inputs in store are the core's run under that sequence, for every sequence: what R37 makes a parameter. -/
theorem run_eq_coreRun (k : CoreState) :
    core.run l.length { toCoreState := k, inputs := l, replies := r } = mapNext (rejoin [] r) (coreRun l k) := by
  induction l generalizing k r with
  | nil => simp only [coreRun, mapNext, rejoin, List.append_nil]; rfl
  | cons x l ih =>
    have h : core.step { toCoreState := k, inputs := x :: l, replies := r } = mapNext (rejoin l r) (coreStep x k) := rfl
    simp only [List.length_cons, Host.Core.run, coreRun, h]
    cases coreStep x k with
    | next p =>
      refine (ih (r ++ p.2) p.1).trans ?_
      dsimp only
      cases coreRun l p.1 with
      | next q => simp only [mapNext, rejoin, List.append_assoc]; rfl
      | fault q => rfl
      | refused q => rfl
    | fault q => rfl
    | refused q => rfl

end Sys2Proof.Machine
end

