-- ==== Sys2Proof/Laws/Exec.lean ====
section
/-! SUPPORT. What a command can do and what a step can do, each said once. -/

namespace Sys2Proof.Machine

/-- Each form of a next state of a command: an error report, a result, INIT's result, DERIVE's result. -/
inductive CommandEnds (i : Instr) (s : State) : State → Prop where
  /-- The command reported an error. -/
  | raised (e : ErrCode) (he : e ≠ .ok) : CommandEnds i s (s.raise e)
  /-- The command has a result and writes no key register. -/
  | result (out : List Byte) (hi : i ≠ .init) (hd : i ≠ .derive) : CommandEnds i s (s.succeed out)
  /-- INIT (R142). -/
  | constants (hi : i = .init) : CommandEnds i s ((s.setRoundConstants rcGen).succeed (blockBytes rcGen.toList))
  /-- DERIVE (R146). -/
  | keys (hi : i = .derive) (hc : s.rcv = true) (mk : MasterKey) :
    CommandEnds i s ((s.setRoundKeys (keySchedule mk s.rc)).succeed (blockBytes (keySchedule mk s.rc).toList))

theorem commandEnds_onBlock {i : Instr} {f : Block → List Byte} {s t : State} (hi : i ≠ .init) (hd : i ≠ .derive)
    (h : onBlock f s = .next t) : CommandEnds i s t := by
  rcases onBlock_cases f s with ⟨_, e⟩ | ⟨_, x, _, e⟩ | ⟨_, _, e⟩ <;> rw [e] at h <;> cases h
  · exact .raised _ (by decide)
  · exact .result _ hi hd

theorem commandEnds_onKeyedBlock {i : Instr} {f : Block → RoundKeys → List Byte} {s t : State} (hi : i ≠ .init)
    (hd : i ≠ .derive) (h : onKeyedBlock f s = .next t) : CommandEnds i s t := by
  rcases onKeyedBlock_cases f s with ⟨_, e⟩ | ⟨_, _, e⟩ | ⟨_, _, x, _, e⟩ | ⟨_, _, _, e⟩ <;> rw [e] at h <;> cases h
  · exact .raised _ (by decide)
  · exact .raised _ (by decide)
  · exact .result _ hi hd

/-- Everything a command can do when it goes on. -/
theorem exec_next {i : Instr} {s t : State} (h : exec i s = .next t) : CommandEnds i s t := by
  cases i with
  | gfmul a b => cases h; exact .result _ (by simp) (by simp)
  | lfold => exact commandEnds_onBlock (by simp) (by simp) h
  | ilfold => exact commandEnds_onBlock (by simp) (by simp) h
  | lfwd => exact commandEnds_onBlock (by simp) (by simp) h
  | linv => exact commandEnds_onBlock (by simp) (by simp) h
  | sub => exact commandEnds_onBlock (by simp) (by simp) h
  | isub => exact commandEnds_onBlock (by simp) (by simp) h
  | init => cases h; exact .constants rfl
  | derive =>
    rcases onMasterKey_cases keySchedule s with ⟨_, e⟩ | ⟨_, _, e⟩ | ⟨_, hc, mk, _, e⟩ | ⟨_, _, _, e⟩ <;>
      rw [exec, execDerive, e] at h <;> cases h
    · exact .raised _ (by decide)
    · exact .raised _ (by decide)
    · exact .keys rfl hc mk
  | enc => exact commandEnds_onKeyedBlock (f := fun x rk => (enc x rk).toList) (by simp) (by simp) h
  | dec => exact commandEnds_onKeyedBlock (f := fun x rk => (dec x rk).toList) (by simp) (by simp) h
  | gamma =>
    rcases onDataAndSync_cases (fun data sync rk => blockBytes (gamma data sync rk)) s with
      ⟨_, e⟩ | ⟨_, _, e⟩ | ⟨_, _, d, y, _, _, e⟩ | ⟨_, _, _, e⟩ <;> rw [exec, execGamma, e] at h <;> cases h
    · exact .raised _ (by decide)
    · exact .raised _ (by decide)
    · exact .result _ (by simp) (by simp)
  | addbe =>
    rcases onTwoSequences_cases addBe s with ⟨x, y, _, _, e⟩ | ⟨_, e⟩ <;> rw [exec, execAddbe, e] at h <;> cases h
    exact .result _ (by simp) (by simp)
  | subkey =>
    rcases onKeys_cases (fun rk => (subkey rk).toList) s with ⟨_, e⟩ | ⟨_, e⟩ <;> rw [exec, execSubkey, e] at h <;> cases h
    · exact .raised _ (by decide)
    · exact .result _ (by simp) (by simp)
  | tag =>
    rcases onMessage_cases (fun data rk => (tag data rk).toList) s with
      ⟨_, e⟩ | ⟨_, _, e⟩ | ⟨_, _, d, _, e⟩ | ⟨_, _, _, e⟩ <;> rw [exec, execTag, e] at h <;> cases h
    · exact .raised _ (by decide)
    · exact .raised _ (by decide)
    · exact .result _ (by simp) (by simp)

/-- A command never refuses. -/
theorem exec_ne_refused (i : Instr) (s : State) (r : Refusal) : exec i s ≠ .refused r := by
  cases i with
  | gfmul a b => simp [exec, execGfmul]
  | init => simp [exec, execInit]
  | derive =>
    rcases onMasterKey_cases keySchedule s with ⟨_, e⟩ | ⟨_, _, e⟩ | ⟨_, _, _, _, e⟩ | ⟨_, _, _, e⟩ <;>
      rw [exec, execDerive, e] <;> simp
  | gamma =>
    rcases onDataAndSync_cases (fun data sync rk => blockBytes (gamma data sync rk)) s with
      ⟨_, e⟩ | ⟨_, _, e⟩ | ⟨_, _, _, _, _, _, e⟩ | ⟨_, _, _, e⟩ <;> rw [exec, execGamma, e] <;> simp
  | addbe =>
    rcases onTwoSequences_cases addBe s with ⟨_, _, _, _, e⟩ | ⟨_, e⟩ <;> rw [exec, execAddbe, e] <;> simp
  | subkey =>
    rcases onKeys_cases (fun rk => (subkey rk).toList) s with ⟨_, e⟩ | ⟨_, e⟩ <;> rw [exec, execSubkey, e] <;> simp
  | tag =>
    rcases onMessage_cases (fun data rk => (tag data rk).toList) s with
      ⟨_, e⟩ | ⟨_, _, e⟩ | ⟨_, _, _, _, e⟩ | ⟨_, _, _, e⟩ <;> rw [exec, execTag, e] <;> simp
  | enc =>
    rcases onKeyedBlock_cases (fun x rk => (enc x rk).toList) s with
      ⟨_, e⟩ | ⟨_, _, e⟩ | ⟨_, _, _, _, e⟩ | ⟨_, _, _, e⟩ <;> rw [exec, execEnc, e] <;> simp
  | dec =>
    rcases onKeyedBlock_cases (fun x rk => (dec x rk).toList) s with
      ⟨_, e⟩ | ⟨_, _, e⟩ | ⟨_, _, _, _, e⟩ | ⟨_, _, _, e⟩ <;> rw [exec, execDec, e] <;> simp
  | lfold =>
    rcases onBlock_cases (fun x => [lfold x]) s with ⟨_, e⟩ | ⟨_, _, _, e⟩ | ⟨_, _, e⟩ <;>
      rw [exec, execLfold, e] <;> simp
  | ilfold =>
    rcases onBlock_cases (fun x => [ilfold x]) s with ⟨_, e⟩ | ⟨_, _, _, e⟩ | ⟨_, _, e⟩ <;>
      rw [exec, execIlfold, e] <;> simp
  | lfwd =>
    rcases onBlock_cases (fun x => (lin x).toList) s with ⟨_, e⟩ | ⟨_, _, _, e⟩ | ⟨_, _, e⟩ <;>
      rw [exec, execLfwd, e] <;> simp
  | linv =>
    rcases onBlock_cases (fun x => (linInv x).toList) s with ⟨_, e⟩ | ⟨_, _, _, e⟩ | ⟨_, _, e⟩ <;>
      rw [exec, execLinv, e] <;> simp
  | sub =>
    rcases onBlock_cases (fun x => (sub x).toList) s with ⟨_, e⟩ | ⟨_, _, _, e⟩ | ⟨_, _, e⟩ <;>
      rw [exec, execSub, e] <;> simp
  | isub =>
    rcases onBlock_cases (fun x => (subInv x).toList) s with ⟨_, e⟩ | ⟨_, _, _, e⟩ | ⟨_, _, e⟩ <;>
      rw [exec, execIsub, e] <;> simp

/-- Everything a step can do when it goes on, by the input it takes. -/
theorem step_next {s t : State} (h : step s = .next t) :
    (s.inputs = [] ∧ t = s) ∨
    ∃ x rest, s.inputs = x :: rest ∧
      ((∃ bytes, x = .host (.loadA bytes) ∧ bytes.length ≤ Config.bufMax ∧ t = (s.setInputs rest).setA bytes) ∨
       (∃ bytes, x = .host (.loadB bytes) ∧ bytes.length ≤ Config.bufMax ∧ t = (s.setInputs rest).setB bytes) ∨
       (∃ w i, x = .host (.issue w) ∧ decode w = .ok i ∧ exec i (s.setInputs rest) = .next t) ∨
       (∃ w e, x = .host (.issue w) ∧ decode w = .error e ∧ t = (s.setInputs rest).raise .illegalCommand) ∨
       (∃ bytes, x = .host .readO ∧ s.o.readBytes 0 s.olen.toNat = some bytes ∧
         t = (s.setInputs rest).reply (.output bytes)) ∨
       (x = .host .readStatus ∧ t = (s.setInputs rest).reply (.status (s.setInputs rest).status)) ∨
       (x = .reset ∧ t = (s.setInputs rest).resetCore)) := by
  cases hi : s.inputs with
  | nil =>
    unfold step takeInput at h
    rw [hi] at h; cases h; exact .inl ⟨rfl, rfl⟩
  | cons x rest =>
    rw [step_cons s hi] at h
    refine .inr ⟨x, rest, rfl, ?_⟩
    cases x with
    | reset => cases h; simp
    | host act =>
      cases act with
      | loadA bytes =>
        simp only [perform, hostAct, hostLoadA] at h
        split at h
        · next hl => cases h; simp [hl]
        · cases h
      | loadB bytes =>
        simp only [perform, hostAct, hostLoadB] at h
        split at h
        · next hl => cases h; simp [hl]
        · cases h
      | issue w =>
        simp only [perform, hostAct, hostIssue] at h
        split at h
        · next i hd => simp [hd, h]
        · next e hd => cases h; simp [hd]
      | readO =>
        simp only [perform, hostAct, hostReadO] at h
        split at h
        · next bytes hb => cases h; simp_all [State.setInputs]
        · cases h
      | readStatus => cases h; simp

end Sys2Proof.Machine
end

