-- ==== Sys2Proof/Laws/Memory.lean ====
section
/-! SUPPORT. The buffers: reading after writing, the canonical form is kept, and what a freshly filled buffer reads as. -/

namespace Sys2Proof.Machine

@[simp] theorem Memory.read_nil (i : Nat) : Memory.read [] i = none := rfl

/-- Reading after writing one byte. -/
theorem Memory.read_write (m : Memory) (i j : Nat) (v : Byte) :
    (m.write i v).read j = if j = i then some v else m.read j := by
  induction m with
  | nil => rfl
  | cons c m ih =>
    obtain ⟨k, u⟩ := c
    simp only [Memory.write]
    split
    · rfl
    · split
      · next h => subst h; simp only [Memory.read]; split <;> simp_all
      · next h =>
        simp only [Memory.read, ih]
        split
        · next h' => subst h'; simp [Ne.symm h]
        · rfl

/-- A written buffer's offsets: the old ones and the written one. -/
theorem Memory.mem_write_fst {m : Memory} {i : Nat} {v : Byte} {c : Host.Cell} (h : c ∈ m.write i v) :
    c.1 = i ∨ c ∈ m := by
  induction m with
  | nil => simp_all [Memory.write]
  | cons d m ih =>
    obtain ⟨k, u⟩ := d
    simp only [Memory.write] at h
    split at h
    · simp only [List.mem_cons] at h ⊢
      rcases h with rfl | h
      · exact .inl rfl
      · exact .inr h
    · split at h
      · next e =>
        simp only [List.mem_cons] at h ⊢
        rcases h with rfl | h
        · exact .inl rfl
        · exact .inr (.inr h)
      · simp only [List.mem_cons] at h ⊢
        rcases h with rfl | h
        · exact .inr (.inl rfl)
        · exact (ih h).imp id .inr

/-- Writing keeps the canonical form. -/
theorem Memory.write_wf {m : Memory} (h : m.wf) (i : Nat) (v : Byte) : (m.write i v).wf := by
  induction m with
  | nil => exact List.pairwise_singleton _ _
  | cons c m ih =>
    obtain ⟨k, u⟩ := c
    obtain ⟨hk, hm⟩ := List.pairwise_cons.1 h
    simp only [Memory.write]
    split
    · next hlt =>
      refine List.pairwise_cons.2 ⟨fun c hc => ?_, h⟩
      rcases List.mem_cons.1 hc with rfl | hc
      · exact hlt
      · exact Nat.lt_trans hlt (hk c hc)
    · split
      · next e => subst e; exact List.pairwise_cons.2 ⟨hk, hm⟩
      · next hlt hne =>
        refine List.pairwise_cons.2 ⟨fun c hc => ?_, ih hm⟩
        rcases Memory.mem_write_fst hc with e | hc
        · show k < c.1
          omega
        · exact hk c hc

theorem Memory.writeBytes_wf {m : Memory} (h : m.wf) (off : Nat) (l : List Byte) : (m.writeBytes off l).wf := by
  induction l generalizing off with
  | nil => exact h
  | cons x l ih => exact Memory.write_wf (ih (off + 1)) off x

theorem Memory.holding_wf (l : List Byte) : (Memory.holding l).wf := Memory.writeBytes_wf List.Pairwise.nil 0 l

/-- Reading after MemWrite: the written bytes, and elsewhere what was there. -/
theorem Memory.read_writeBytes (m : Memory) (off : Nat) (l : List Byte) (i : Nat) :
    (m.writeBytes off l).read i =
      if off ≤ i ∧ i < off + l.length then l[i - off]? else m.read i := by
  induction l generalizing off with
  | nil => simp [Memory.writeBytes]
  | cons x l ih =>
    simp only [Memory.writeBytes, Memory.read_write, ih, List.length_cons]
    by_cases h : i = off
    · subst h; simp
    · simp only [h, if_false]
      by_cases h1 : off + 1 ≤ i ∧ i < off + 1 + l.length
      · rw [if_pos h1, if_pos (by omega), show i - off = (i - (off + 1)) + 1 by omega, List.getElem?_cons_succ]
      · rw [if_neg h1, if_neg (by omega)]

/-- A freshly filled buffer: its bytes at the offsets below their number, no value above (R53, R59). -/
@[simp] theorem Memory.read_holding (l : List Byte) (i : Nat) : (Memory.holding l).read i = l[i]? := by
  simp only [Memory.holding, Memory.read_writeBytes, Memory.read_nil]
  split
  · simp
  · rw [eq_comm, List.getElem?_eq_none_iff]; omega

theorem Memory.readBytes_length {m : Memory} {off n : Nat} {l : List Byte} (h : m.readBytes off n = some l) :
    l.length = n := by
  induction n generalizing off l with
  | zero => simp [Memory.readBytes] at h; simp [← h]
  | succ n ih =>
    simp only [Memory.readBytes] at h
    split at h
    · next v r _ hr =>
      cases h
      simp [ih hr]
    · cases h

/-- A read answers exactly when every byte in its range holds a value. -/
theorem Memory.readBytes_isSome {m : Memory} {off n : Nat} :
    (m.readBytes off n).isSome ↔ ∀ i, off ≤ i → i < off + n → (m.read i).isSome := by
  induction n generalizing off with
  | zero => simp [Memory.readBytes]; omega
  | succ n ih =>
    have h := @ih (off + 1)
    simp only [Memory.readBytes]
    constructor
    · intro hs i h1 h2
      split at hs
      · next v r hv hr =>
        rcases Nat.eq_or_lt_of_le h1 with rfl | h1
        · simp [hv]
        · exact h.1 (by simp [hr]) i h1 (by omega)
      · cases hs
    · intro hs
      obtain ⟨v, hv⟩ := Option.isSome_iff_exists.1 (hs off (Nat.le_refl _) (by omega))
      obtain ⟨r, hr⟩ := Option.isSome_iff_exists.1 (h.2 fun i h1 h2 => hs i (by omega) (by omega))
      simp [hv, hr]

theorem ofList?_eq_some {n : Nat} {l : List Byte} (h : l.length = n) : ofList? n l = some (ofList l h) := by
  simp [ofList?, h]

/-- MemRead answers exactly when the bytes can be read. -/
theorem Memory.memRead_isSome {m : Memory} {off n : Nat} :
    (m.memRead off n).isSome ↔ (m.readBytes off n).isSome := by
  unfold Memory.memRead
  cases h : m.readBytes off n with
  | none => simp
  | some l => simp [ofList?_eq_some (Memory.readBytes_length h)]

theorem Memory.chunks_length {m : Memory} {off count : Nat} {l : List Block} (h : m.chunks off count = some l) :
    l.length = count := by
  induction count generalizing off l with
  | zero => simp [Memory.chunks] at h; simp [← h]
  | succ n ih =>
    simp only [Memory.chunks] at h
    split at h
    · next x r _ hr =>
      cases h
      simp [ih hr]
    · cases h

/-- Every chunk can be read when every byte of their range holds a value. -/
theorem Memory.chunks_isSome {m : Memory} {off count : Nat}
    (h : ∀ i, off ≤ i → i < off + 16 * count → (m.read i).isSome) : (m.chunks off count).isSome := by
  induction count generalizing off with
  | zero => simp [Memory.chunks]
  | succ n ih =>
    obtain ⟨x, hx⟩ := Option.isSome_iff_exists.1
      (Memory.memRead_isSome.2 (Memory.readBytes_isSome.2 fun i (h1 : off ≤ i) (h2 : i < off + 16) => h i h1 (by omega)))
    obtain ⟨r, hr⟩ := Option.isSome_iff_exists.1 (@ih (off + 16) fun i h1 h2 => h i (by omega) (by omega))
    simp [Memory.chunks, hx, hr]

/-- In a buffer, the offsets listed are the offsets that hold a value. -/
theorem Memory.read_isSome {m : Memory} {i : Nat} : (m.read i).isSome ↔ i ∈ m.map Prod.fst := by
  induction m with
  | nil => simp
  | cons c m ih =>
    obtain ⟨k, v⟩ := c
    simp only [Memory.read, List.map_cons, List.mem_cons]
    split
    · next h => simp [h]
    · next h => simp [h, ih]

theorem Memory.filledTo_read_isSome {m : Memory} {n i : Nat} (h : m.filledTo n) : (m.read i).isSome ↔ i < n := by
  rw [Memory.read_isSome, h, List.mem_range]

theorem Memory.filledTo_wf {m : Memory} {n : Nat} (h : m.filledTo n) : m.wf :=
  List.pairwise_map.1 (h ▸ List.pairwise_lt_range)

theorem Memory.writeBytes_nil_fst (off : Nat) (l : List Byte) :
    (Memory.writeBytes [] off l).map Prod.fst = List.range' off l.length := by
  induction l generalizing off with
  | nil => rfl
  | cons x l ih =>
    have h := ih (off + 1)
    simp only [Memory.writeBytes, List.length_cons, List.range'_succ]
    cases hm : Memory.writeBytes [] (off + 1) l with
    | nil => rw [hm] at h; simp [Memory.write, ← h]
    | cons c m =>
      obtain ⟨k, u⟩ := c
      rw [hm] at h
      have hk : off < k := by
        have : k ∈ List.range' (off + 1) l.length := by rw [← h]; simp
        simp at this; omega
      rw [Memory.write, if_pos hk, List.map_cons, h]

theorem Memory.holding_filledTo (l : List Byte) : (Memory.holding l).filledTo l.length := by
  unfold Memory.filledTo Memory.holding
  rw [Memory.writeBytes_nil_fst, List.range_eq_range']

/-- Reading a freshly filled buffer gives back what was put in. -/
theorem Memory.readBytes_eq_of_getElem {m : Memory} {off : Nat} {l : List Byte}
    (h : ∀ i, i < l.length → m.read (off + i) = l[i]?) : m.readBytes off l.length = some l := by
  induction l generalizing off with
  | nil => rfl
  | cons x l ih =>
    have h0 := h 0 (by simp)
    have hr := @ih (off + 1) fun i hi => by
      have := h (i + 1) (by simpa using hi)
      rw [show off + 1 + i = off + (i + 1) by omega, this, List.getElem?_cons_succ]
    simp only [Nat.add_zero, List.getElem?_cons_zero] at h0
    simp [Memory.readBytes, h0, hr]

theorem Memory.readBytes_holding (l : List Byte) : (Memory.holding l).readBytes 0 l.length = some l :=
  Memory.readBytes_eq_of_getElem fun i _ => by simp

end Sys2Proof.Machine
end

