-- ==== Sys2Proof/Laws/PerInstr.lean ====
section
/-! SUPPORT. The family EncodedWordMeetsItsRow: the word the encoder gives a command meets the row of spec/30_encoding.md R83 for it,
and no row of another opcode. One lemma per constructor of Instr. -/

namespace Sys2Proof.Laws.EncodedWordMeetsItsRow

/-- "A word `w` is the command iff `(w AND mask) = match`" (R83), for the encoder's word; the opcode field is the command's. -/
def Statement (i : Instr) : Prop :=
  i.wellFormed = true ∧ encode i &&& i.mask = i.pattern ∧ opcodeField (encode i) = i.opcode

theorem gfmul (a b : Byte) : Statement (.gfmul a b) := by
  refine ⟨rfl, ?_, ?_⟩
  · ext k hk
    simp only [encode, encodeM, Instr.opcode, Instr.mask, Instr.pattern, BitVec.getElem_and, BitVec.getElem_append]
    by_cases h : k < 16
    · interval_cases k <;> simp
    · have : 16 ≤ k := by omega
      interval_cases k <;> simp
  · ext k hk
    simp only [encode, encodeM, Instr.opcode, opcodeField, BitVec.getElem_extractLsb', BitVec.getLsbD_append]
    interval_cases k <;> simp
theorem lfold : Statement .lfold := by simp only [Statement]; decide
theorem ilfold : Statement .ilfold := by simp only [Statement]; decide
theorem lfwd : Statement .lfwd := by simp only [Statement]; decide
theorem linv : Statement .linv := by simp only [Statement]; decide
theorem sub : Statement .sub := by simp only [Statement]; decide
theorem isub : Statement .isub := by simp only [Statement]; decide
theorem init : Statement .init := by simp only [Statement]; decide
theorem derive : Statement .derive := by simp only [Statement]; decide
theorem enc : Statement .enc := by simp only [Statement]; decide
theorem dec : Statement .dec := by simp only [Statement]; decide
theorem gamma : Statement .gamma := by simp only [Statement]; decide
theorem addbe : Statement .addbe := by simp only [Statement]; decide
theorem subkey : Statement .subkey := by simp only [Statement]; decide
theorem tag : Statement .tag := by simp only [Statement]; decide

end Sys2Proof.Laws.EncodedWordMeetsItsRow
end

