-- ==== Sys2Proof/Tests/Slice0.lean ====
section
/-! SUPPORT. Tests: the words of spec/30_encoding.md, one step per command on the vectors of spec/95_test_vectors.md, and for each
statement with hypotheses a state and operands that meet them. Expected values are the spec's. -/

namespace Sys2Proof.Tests

open Sys2Proof.Machine

/-! Helpers -/

/-- The block whose sixteen bytes read as the hexadecimal number `v`. -/
def blk (v : Nat) : Block := ofList (beN 16 v) (beN_length 16 v)

/-- The reset state with `bytes` in `A`. -/
def inA (bytes : List Byte) : State := State.reset.setA bytes

/-- The round keys of V16. -/
def sampleKeys : RoundKeys :=
  #v[blk 0x8899aabbccddeeff0011223344556677, blk 0xfedcba98765432100123456789abcdef,
     blk 0xdb31485315694343228d6aef8cc78c44, blk 0x3d4553d8e9cfec6815ebadc40a9ffd04,
     blk 0x57646468c44a5e28d3e59246f429f1ac, blk 0xbd079435165c6432b532e82834da581b,
     blk 0x51e640757e8745de705727265a0098b1, blk 0x5a7925017b9fdd3ed72a91a22286f984,
     blk 0xbb44e25378c73123a5f32f73cdb6e517, blk 0x72e9dd7416bcf45b755dbaa88e4a4043]

/-- `s` holding the round keys of V16. -/
def keyed (s : State) : State := s.setRoundKeys sampleKeys

/-- The bytes of `O`, `OLEN` and `ERR` of a next state. -/
def result : Result → Option (List Byte × Nat × ErrCode)
  | .next t => some (t.o.map Prod.snd, t.olen.toNat, t.err)
  | _ => none

/-- The error a next state reports, with nothing in `O`. -/
def error (e : ErrCode) : Option (List Byte × Nat × ErrCode) := some ([], 0, e)

/-- A result of `n` bytes that read as the hexadecimal number `v`. -/
def bytes (n v : Nat) : Option (List Byte × Nat × ErrCode) := some (beN n v, n, .ok)

/-- The state in which the next thing from outside is `x`. -/
def facing (x : Input) : State := State.reset.setInputs [x]

/-! Well-formed words: the check of R83 takes each kind of legal word and refuses each kind of illegal one (R84) -/

theorem test_word_legal : (isCommandWord 0x0100FFFF#32 && isCommandWord 0x0F000000#32) = true := by decide
theorem test_word_opcode_zero : isCommandWord 0x00000000#32 = false := by decide
theorem test_word_opcode_above : isCommandWord 0x10000000#32 = false := by decide
theorem test_word_format_z_bit_0 : isCommandWord 0x02000001#32 = false := by decide
theorem test_word_format_z_bit_23 : isCommandWord 0x08800000#32 = false := by decide
theorem test_word_gfmul_bit_16 : isCommandWord 0x01010000#32 = false := by decide
theorem test_wellFormed : (Instr.rows.all Instr.wellFormed) = true := by decide

/-! Each constructor's word, from R83's encodings (bits 31:24 the opcode, GFMUL's a = bits 15:8 and b = bits 7:0) -/

theorem test_decode_gfmul : decode 0b00000001_00000000_10010100_10000101#32 = .ok (.gfmul 0x94#8 0x85#8) := by decide
theorem test_decode_lfold : decode 0b00000010_000000000000000000000000#32 = .ok .lfold := by decide
theorem test_decode_ilfold : decode 0b00000011_000000000000000000000000#32 = .ok .ilfold := by decide
theorem test_decode_lfwd : decode 0b00000100_000000000000000000000000#32 = .ok .lfwd := by decide
theorem test_decode_linv : decode 0b00000101_000000000000000000000000#32 = .ok .linv := by decide
theorem test_decode_sub : decode 0b00000110_000000000000000000000000#32 = .ok .sub := by decide
theorem test_decode_isub : decode 0b00000111_000000000000000000000000#32 = .ok .isub := by decide
theorem test_decode_init : decode 0b00001000_000000000000000000000000#32 = .ok .init := by decide
theorem test_decode_derive : decode 0b00001001_000000000000000000000000#32 = .ok .derive := by decide
theorem test_decode_enc : decode 0b00001010_000000000000000000000000#32 = .ok .enc := by decide
theorem test_decode_dec : decode 0b00001011_000000000000000000000000#32 = .ok .dec := by decide
theorem test_decode_gamma : decode 0b00001100_000000000000000000000000#32 = .ok .gamma := by decide
theorem test_decode_addbe : decode 0b00001101_000000000000000000000000#32 = .ok .addbe := by decide
theorem test_decode_subkey : decode 0b00001110_000000000000000000000000#32 = .ok .subkey := by decide
theorem test_decode_tag : decode 0b00001111_000000000000000000000000#32 = .ok .tag := by decide
theorem test_decode_illegal : decode 0x0F000100#32 = .error .zeroFieldSet := by decide
theorem test_encode_gfmul : encode (.gfmul 0x94#8 0x85#8) = 0x01009485#32 := by decide
theorem test_decodeTableWord : decodeTableWord 32 0x01009485 = some (.gfmul 0x94#8 0x85#8) := by decide

/-! One step per command (V1, V12 to V28) -/

/-- V28, step 7. -/
theorem test_gfmul : result (step (State.reset.withFetchWord 32 0x01009485)) = bytes 1 0x64 := by decide
/-- V1: all ones squared. -/
theorem test_gfmul_ones : result (exec (.gfmul 0xFF#8 0xFF#8) State.reset) = bytes 1 0x06 := by decide
/-- V13. -/
theorem test_lfold : result (exec .lfold (inA (beN 16 0x00112233445566778899aabbccddeeff))) = bytes 1 0xba := by
  decide +kernel
/-- V13. -/
theorem test_ilfold : result (exec .ilfold (inA (beN 16 0x00112233445566778899aabbccddeeff))) = bytes 1 0x39 := by
  decide +kernel
/-- V15. -/
theorem test_lfwd : result (exec .lfwd (inA (beN 16 0x00112233445566778899aabbccddeeff))) =
    bytes 16 0xbad72a1338b6efaf69415b91f11a31ad := by decide +kernel
/-- V15. -/
theorem test_linv : result (exec .linv (inA (beN 16 0x00112233445566778899aabbccddeeff))) =
    bytes 16 0x8a567170c9bb71e67e6dd847a0650439 := by decide +kernel
/-- V12. -/
theorem test_sub : result (exec .sub (inA (beN 16 0x00112233445566778899aabbccddeeff))) =
    bytes 16 0xfc7765aeea0c9a7ed7e8387d88d86cb6 := by decide +kernel
/-- V12: ALEN = 17. -/
theorem test_sub_17 : result (exec .sub (inA (List.replicate 17 0#8))) = error .invalidBlockLength := by decide +kernel
/-- V12. -/
theorem test_isub : result (exec .isub (inA (beN 16 0x00112233445566778899aabbccddeeff))) =
    bytes 16 0xa5038d9da7b6f911cc16da1b4f020174 := by decide +kernel
/-- V27: `RC[1]`, the second block INIT writes. -/
theorem test_init_rc1 : roundConstant 2#8 = blk 0xdc87ece4d890f4b3ba4eb92079cbeb02 := by decide +kernel
/-- V27: `RC[31]`, the last block INIT writes. -/
theorem test_init_rc31 : roundConstant 32#8 = blk 0x5ea7d8581e149b61f16ac1459ceda820 := by decide +kernel
/-- V16, step 0. -/
theorem test_derive_step0 :
    feistelStep (blk 0x6ea276726c487ab85d27bd10dd849401) 0
      (blk 0x8899aabbccddeeff0011223344556677, blk 0xfedcba98765432100123456789abcdef) =
    (blk 0x8899aabbccddeeff0011223344556677, blk 0xc3d5fa01ebe36f7a9374427ad7ca8949) := by decide +kernel
/-- V16: the ten round keys DERIVE writes. -/
theorem test_derive :
    (keySchedule (ofList (beN 32 0x8899aabbccddeeff0011223344556677fedcba98765432100123456789abcdef) (beN_length 32 _)) rcGen) =
      sampleKeys := by decide +kernel
/-- V17. -/
theorem test_enc : result (exec .enc (keyed (inA (beN 16 0x1122334455667700ffeeddccbbaa9988)))) =
    bytes 16 0x7f679d90bebc24305a468d42b9d4edcd := by decide +kernel
/-- V28, step 1: 15 bytes and no key. -/
theorem test_enc_15 : result (exec .enc (inA (List.replicate 15 0#8))) = error .invalidBlockLength := by decide +kernel
/-- V18. -/
theorem test_dec : result (exec .dec (keyed (inA (beN 16 0x7f679d90bebc24305a468d42b9d4edcd)))) =
    bytes 16 0x1122334455667700ffeeddccbbaa9988 := by decide +kernel
/-- V22: the zero sync, whose second counter is the filled one. -/
theorem test_gamma :
    result (exec .gamma ((keyed (inA (beN 32 0x1122334455667700ffeeddccbbaa998800112233445566778899aabbcceeff0a))).setB
      (List.replicate 8 0#8))) =
    bytes 32 0x859cf21a73fa86e5f91ef655f7a0172801c951347e94a413dda109d0ff8009cd := by decide +kernel
/-- V28, step 13: a sync of seven bytes. -/
theorem test_gamma_sync_7 : result (exec .gamma ((inA (List.replicate 32 0#8)).setB (List.replicate 7 0#8))) =
    error .invalidInputLength := by decide +kernel
/-- V23: carry out of sixteen bytes. -/
theorem test_addbe : result (exec .addbe ((inA (List.replicate 16 0xFF#8)).setB [0x01#8])) = bytes 17 (256 ^ 16) := by
  decide +kernel
/-- V23: leading zeros are not kept. -/
theorem test_addbe_minimal : result (exec .addbe ((inA [0x00#8, 0xFF#8]).setB [0x00#8, 0x01#8])) = bytes 2 0x0100 := by
  decide +kernel
/-- V24. -/
theorem test_subkey : result (exec .subkey (keyed State.reset)) = bytes 16 0x297d82bc4d39e3ca0de0573298151dc7 := by
  decide +kernel
/-- V25: the test is on the shifted last byte, which is 00 here although the bit shifted out is 1. -/
theorem test_subkey_dbl : dbl (blk 0x80000000000000000000000000000000) = zeroBlock := by decide +kernel
/-- V26: two chunks. -/
theorem test_tag :
    result (exec .tag (keyed (inA (beN 32 0x1122334455667700ffeeddccbbaa998800112233445566778899aabbcceeff0a)))) =
    bytes 8 0x8519704f86a57778 := by decide +kernel
/-- V10: one block. -/
theorem test_tag_16 : result (exec .tag (inA (List.replicate 16 0#8))) = error .invalidInputLength := by decide +kernel

/-! The decoder's illegal words, reset, the host -/

/-- V28: an illegal word. -/
theorem test_illegal : result (step (State.reset.withFetchWord 32 0x0A000001)) = error .illegalCommand := by decide
/-- V28: SUBKEY in the reset state. -/
theorem test_first_subkey : result (step (State.reset.withFetchWord 32 0x0E000000)) = error .notReady := by decide
/-- V28, after step 17: STATUS with both flags set and an illegal command. -/
theorem test_status : ({ State.reset with rcv := true, rkv := true, err := .illegalCommand } : State).status = 0x00000305#32 := by
  decide
/-- R59: 512 bytes always fit (R10). -/
theorem test_load_512 (s : List Byte) (h : s.length = 512) : hostLoadA s State.reset = .next (State.reset.setA s) :=
  if_pos (h.le.trans Config.bufMax_ge)
/-- R59: a byte too many is refused. -/
theorem test_load_too_long : hostLoadA (List.replicate (Config.bufMax + 1) 0#8) State.reset =
    .refused (.loadTooLong (Config.bufMax + 1)) := by
  simp [hostLoadA]
/-- R53: a write in the middle keeps the offsets rising. -/
theorem test_write_wf : Memory.write [(1, 0#8), (3, 0#8)] 2 7#8 = [(1, 0#8), (2, 7#8), (3, 0#8)] := by decide
/-- R52: two bytes from offset 1. -/
theorem test_memRead : (Memory.holding [1#8, 2#8, 3#8]).memRead 1 2 = some #v[2#8, 3#8] := by decide

/-! A state and operands that meet the hypotheses of each statement that has some -/

/-- A state that meets the invariant with everything in use: constants and keys generated, `A` of 32 bytes, `B` of 8, `O` of 1. -/
def busy : State :=
  { State.reset with
    rc := rcGen, rcv := true, rk := keySchedule (Vector.replicate 32 0#8) rcGen, rkv := true,
    a := Memory.holding (List.replicate 32 1#8), alen := 32#32, b := Memory.holding (List.replicate 8 2#8), blen := 8#32,
    o := Memory.holding [3#8], olen := 1#32 }

theorem test_busy_inv : busy.Inv where
  aFilled := Memory.holding_filledTo (List.replicate 32 1#8)
  aFits := Nat.le_trans (by decide) Config.bufMax_ge
  bFilled := Memory.holding_filledTo (List.replicate 8 2#8)
  bFits := Nat.le_trans (by decide) Config.bufMax_ge
  oFilled := Memory.holding_filledTo [3#8]
  oFits := by have := Config.bufMax_ge; have h : busy.olen.toNat = 1 := rfl; omega
  constantsValid := fun _ => rfl
  keysValid := fun _ => ⟨_, rfl⟩
  keysNeedConstants := fun _ => rfl
  noResultOnError := fun h => absurd rfl h

/-- The same state, with what happens next. -/
theorem test_busy_inv_inputs (l : List Input) : (busy.setInputs l).Inv :=
  ⟨test_busy_inv.1, test_busy_inv.2, test_busy_inv.3, test_busy_inv.4, test_busy_inv.5, test_busy_inv.6, test_busy_inv.7,
    test_busy_inv.8, test_busy_inv.9, test_busy_inv.10⟩

theorem test_witness_StepRunsDecodedCommand : ∃ (s : State) (w : Word) (rest : List Input) (i : Instr),
    s.inputs = .host (.issue w) :: rest ∧ decode w = .ok i ∧ i.wellFormed = true :=
  ⟨busy.setInputs [.host (.issue 0x0100FF00#32), .reset], 0x0100FF00#32, [.reset], .gfmul 0xFF#8 0x00#8, rfl, by decide, rfl⟩

/-- One word for each clause, and those where the clauses meet the legal words. -/
theorem test_witness_IllegalWordsRaiseIllegalCommand :
    opcodeField 0x00FFFFFF#32 = 0x00#8 ∧ 0x10#8 ≤ opcodeField 0x10000000#32 ∧ 0x10#8 ≤ opcodeField 0xFFFFFFFF#32 ∧
    (0x02#8 ≤ opcodeField 0x02000001#32 ∧ opcodeField 0x02000001#32 ≤ 0x0F#8 ∧
      (0x02000001#32).extractLsb' 0 24 ≠ 0#24) ∧
    (0x02#8 ≤ opcodeField 0x0F800000#32 ∧ opcodeField 0x0F800000#32 ≤ 0x0F#8 ∧
      (0x0F800000#32).extractLsb' 0 24 ≠ 0#24) ∧
    (opcodeField 0x01010000#32 = 0x01#8 ∧ (0x01010000#32).extractLsb' 16 8 ≠ 0#8) :=
  by decide

theorem test_witness_DecodeInvertsEncode : (Instr.gfmul 0xFF#8 0x80#8).wellFormed = true ∧ Instr.tag.wellFormed = true := by decide

theorem test_witness_EncodeInvertsDecode : ∃ (w : Word) (i : Instr), decode w = .ok i :=
  ⟨0x010000FF#32, .gfmul 0x00#8 0xFF#8, by decide⟩

theorem test_witness_DecodeAgreesWithMaskAndMatch : Instr.gfmul 0 0 ∈ Instr.rows ∧ Instr.tag ∈ Instr.rows := by decide

theorem test_witness_ResetEventRestoresResetState : ∃ (s : State) (rest : List Input), s.inputs = .reset :: rest ∧ s.rcv = true :=
  ⟨busy.setInputs [.reset, .reset], [.reset], rfl, rfl⟩

theorem test_witness_StepKeepsInvariant : ∃ s t : State, s.Inv ∧ step s = .next t ∧ t.err = .invalidBlockLength :=
  ⟨busy.setInputs [.host (.issue 0x0A000000#32)], _, test_busy_inv_inputs _, rfl, rfl⟩

theorem test_witness_StepKeepsCanonicalBuffers : ∃ s t : State, s.memoriesCanonical ∧ step s = .next t ∧ t.err = .ok :=
  ⟨busy.setInputs [.host (.issue 0x01000000#32)], _,
    ⟨Memory.holding_wf _, Memory.holding_wf _, Memory.holding_wf _⟩, rfl, rfl⟩

/-- Both outcomes: a load of more than BUF_MAX bytes, and any other input. -/
theorem test_witness_StepGoesOnUnlessLoadTooLong :
    (∃ s t : State, s.Inv ∧ step s = .next t) ∧
    ∃ (s : State) (bytes : List Byte), s.Inv ∧ s.inputs = [.host (.loadA bytes)] ∧ Config.bufMax < bytes.length :=
  ⟨⟨busy.setInputs [.host .readStatus], _, test_busy_inv_inputs _, rfl⟩,
    ⟨busy.setInputs [.host (.loadA (List.replicate (Config.bufMax + 1) 0#8))], _, test_busy_inv_inputs _, rfl, by simp⟩⟩

theorem test_witness_EveryCommandEndsWithItsCode : ∃ s : State, s.Inv ∧ expectedCode s .derive = .ok :=
  ⟨busy, test_busy_inv, by decide +kernel⟩

/-- The last readable byte and the first one past it. -/
theorem test_witness_InvariantMakesOperandsReadable :
    ∃ (s : State) (off n off' : Nat), s.Inv ∧ 0 < n ∧ off + n = s.alen.toNat ∧ off' + n = s.alen.toNat + 1 :=
  ⟨busy, 31, 1, 32, test_busy_inv, by decide, rfl, rfl⟩

/-- Each code a command can report, and each kind of illegal word. -/
theorem test_witness_FailedCheckOnlyReports :
    expectedCode State.reset .derive = .invalidKeyLength ∧ expectedCode State.reset .enc = .invalidBlockLength ∧
    expectedCode State.reset .tag = .invalidInputLength ∧ expectedCode State.reset .subkey = .notReady ∧
    decode 0x00000000#32 = .error (.unknownOpcode 0x00#8) ∧ decode 0x08800000#32 = .error .zeroFieldSet := by decide

/-- Next states of a result and of an error. -/
theorem test_witness_ReportedCodeIsTheTables :
    (∃ t, exec (.gfmul 2#8 3#8) busy = .next t) ∧ ∃ t, exec .tag State.reset = .next t := ⟨⟨_, rfl⟩, ⟨_, rfl⟩⟩

/-- A byte of `A` without a value, and one of `B`. -/
theorem test_witness_OperandWithoutValueFaults :
    ∃ s s' : State,
      (expectedCode s .sub = .ok ∧ readsA .sub = true ∧ s.a.readBytes 0 s.alen.toNat = none) ∧
      (expectedCode s' .addbe = .ok ∧ readsB .addbe = true ∧ s'.b.readBytes 0 s'.blen.toNat = none) :=
  ⟨{ State.reset with a := Memory.holding (List.replicate 15 0#8), alen := 16#32 }, { State.reset with blen := 1#32 },
    by decide, by decide⟩

theorem test_witness_CommandsKeepOperands : ∃ (s t : State) (i : Instr), exec i s = .next t ∧ s.alen = 32#32 ∧ t.olen = 1#32 :=
  ⟨busy, _, .gfmul 1#8 1#8, rfl, rfl, rfl⟩

/-- INIT from reset, which sets RCV; DERIVE with constants in place, which sets RKV. -/
theorem test_witness_KeyRegistersHaveOneWriterEach :
    (∃ t, exec .init State.reset = .next t ∧ t.rcv ≠ State.reset.rcv) ∧
    ∃ s t : State, exec .derive s = .next t ∧ t.rkv ≠ s.rkv :=
  ⟨⟨_, rfl, Bool.noConfusion⟩,
    { busy with rkv := false },
    ({ busy with rkv := false }.setRoundKeys (keySchedule (Vector.replicate 32 1#8) rcGen)).succeed
      (blockBytes (keySchedule (Vector.replicate 32 1#8) rcGen).toList), rfl, Bool.noConfusion⟩

theorem test_witness_OnlyResetClearsValidFlags :
    ∃ s t : State, step s = .next t ∧ s.rcv = true ∧ t.rcv = false ∧ s.rkv = true ∧ t.rkv = false :=
  ⟨busy.setInputs [.reset], _, rfl, rfl, rfl, rfl, rfl⟩

theorem test_witness_ReissueChangesNothing : ∃ (s t : State) (i : Instr), exec i s = .next t ∧ s.olen ≠ t.olen :=
  ⟨State.reset, _, .gfmul 0x94#8 0x85#8, rfl, by decide⟩

/-- ADDBE in two states that differ in the key registers, the flags, `O` and ERR. -/
theorem test_witness_ResultDependsOnReadOperandsOnly :
    ∃ (s s' t : State) (i : Instr),
      (readsA i = true → s'.a = s.a ∧ s'.alen = s.alen) ∧ (readsB i = true → s'.b = s.b ∧ s'.blen = s.blen) ∧
      (readsConstants i = true → s'.rc = s.rc ∧ s'.rcv = s.rcv) ∧ (readsKeys i = true → s'.rk = s.rk ∧ s'.rkv = s.rkv) ∧
      exec i s = .next t ∧ s'.rcv ≠ s.rcv :=
  ⟨busy, { busy with rcv := false, rkv := false, o := [], olen := 0#32, err := .notReady }, _, .gfmul 1#8 2#8,
    fun _ => ⟨rfl, rfl⟩, fun _ => ⟨rfl, rfl⟩, fun h => absurd h (by decide), fun h => absurd h (by decide), rfl, by decide⟩

/-- An empty load, one of 512 bytes, and ones that do not fit. -/
theorem test_witness_LoadReplacesOneBuffer :
    ((facing (.host (.loadA []))).inputs = [.host (.loadA [])] ∧ ([] : List Byte).length ≤ Config.bufMax) ∧
    ((facing (.host (.loadB (List.replicate 512 1#8)))).inputs = [.host (.loadB (List.replicate 512 1#8))] ∧
      (List.replicate 512 1#8).length ≤ Config.bufMax) ∧
    ∃ bytes : List Byte, Config.bufMax < bytes.length ∧ (facing (.host (.loadA bytes))).inputs = [.host (.loadA bytes)] ∧
      (facing (.host (.loadB bytes))).inputs = [.host (.loadB bytes)] :=
  ⟨⟨rfl, Nat.zero_le _⟩, ⟨rfl, by rw [List.length_replicate]; exact Config.bufMax_ge⟩,
    List.replicate (Config.bufMax + 1) 0#8, by simp, rfl, rfl⟩

/-- A result to read, none to read, a byte without a value, STATUS. -/
theorem test_witness_HostReadsReturnAndChangeNothing :
    (∃ s : State, s.inputs = [.host .readO] ∧ s.o.readBytes 0 s.olen.toNat = some [3#8]) ∧
    (∃ s : State, s.inputs = [.host .readO] ∧ s.o.readBytes 0 s.olen.toNat = some []) ∧
    (∃ s : State, s.inputs = [.host .readO] ∧ s.o.readBytes 0 s.olen.toNat = none) ∧
    ∃ s : State, s.inputs = [.host .readStatus] :=
  ⟨⟨busy.setInputs [.host .readO], rfl, by decide⟩, ⟨facing (.host .readO), rfl, rfl⟩,
    ⟨{ facing (.host .readO) with olen := 1#32 }, rfl, by decide⟩, ⟨facing (.host .readStatus), rfl⟩⟩

theorem test_witness_IdleStepChangesNothing : busy.inputs = [] := rfl

/-- For LfoldCommand, IlfoldCommand, LfwdCommand, LinvCommand, SubCommand, IsubCommand, EncCommand and DecCommand: `ALEN` of 15, 17,
16; with a key and without. -/
theorem test_witness_blockCommands :
    (inA (List.replicate 15 0#8)).alen ≠ 16#32 ∧ (inA (List.replicate 17 0#8)).alen ≠ 16#32 ∧
    ((inA (List.replicate 16 0#8)).alen = 16#32 ∧ (inA (List.replicate 16 0#8)).rkv = false) ∧
    ∃ (s : State) (x : Block), s.alen = 16#32 ∧ s.rkv = true ∧ s.a.memRead 0 16 = some x :=
  ⟨by decide, by decide, by decide, keyed (inA (List.replicate 16 0#8)), zeroBlock, by decide, rfl, by decide +kernel⟩

/-- INIT from reset sets RCV. -/
theorem test_witness_InitCommand : ∃ (s t : State) (i : Instr), exec i s = .next t ∧ s.rcv = false ∧ t.rcv = true :=
  ⟨State.reset, _, .init, rfl, rfl, rfl⟩

/-- `ALEN` of 31, 33, 32; without round constants and with. -/
theorem test_witness_DeriveCommand :
    (inA (List.replicate 31 0#8)).alen ≠ 32#32 ∧ (inA (List.replicate 33 0#8)).alen ≠ 32#32 ∧
    ((inA (List.replicate 32 0#8)).alen = 32#32 ∧ (inA (List.replicate 32 0#8)).rcv = false) ∧
    ∃ mk : MasterKey, busy.alen = 32#32 ∧ busy.rcv = true ∧ busy.a.memRead 0 32 = some mk :=
  ⟨by decide, by decide, by decide, Vector.replicate 32 1#8, rfl, rfl, by decide +kernel⟩

/-- `ALEN` of 0, 15, 17, 16, 32; `BLEN` of 7, 9, 8; without a key and with. -/
theorem test_witness_GammaCommand :
    (State.reset.alen = 0#32 ∧ (inA (List.replicate 15 0#8)).alen.toNat % 16 ≠ 0 ∧
      (inA (List.replicate 17 0#8)).alen.toNat % 16 ≠ 0 ∧ (State.reset.setB (List.replicate 7 0#8)).blen ≠ 8#32 ∧
      (State.reset.setB (List.replicate 9 0#8)).blen ≠ 8#32) ∧
    (∃ s : State, s.alen ≠ 0#32 ∧ s.alen.toNat % 16 = 0 ∧ s.blen = 8#32 ∧ s.rkv = false) ∧
    (∃ (s : State) (data : List Block) (sync : Sync), s.alen = 16#32 ∧ s.alen ≠ 0#32 ∧ s.alen.toNat % 16 = 0 ∧ s.blen = 8#32 ∧
      s.rkv = true ∧ s.a.chunks 0 (s.alen.toNat / 16) = some data ∧ s.b.memRead 0 8 = some sync) ∧
    ∃ (data : List Block) (sync : Sync), busy.alen ≠ 0#32 ∧ busy.alen.toNat % 16 = 0 ∧ busy.blen = 8#32 ∧ busy.rkv = true ∧
      busy.a.chunks 0 (busy.alen.toNat / 16) = some data ∧ busy.b.memRead 0 8 = some sync :=
  ⟨by decide, ⟨{ busy with rkv := false }, by decide⟩,
    ⟨{ busy with a := Memory.holding (List.replicate 16 0#8), alen := 16#32 }, [zeroBlock], Vector.replicate 8 2#8,
      by decide, by decide, by decide, by decide, rfl, by decide +kernel, by decide +kernel⟩,
    [Vector.replicate 16 1#8, Vector.replicate 16 1#8], Vector.replicate 8 2#8,
    by decide, by decide, by decide, rfl, by decide +kernel, by decide +kernel⟩

/-- Both operands empty, and both not. -/
theorem test_witness_AddbeCommand :
    (State.reset.a.readBytes 0 State.reset.alen.toNat = some [] ∧ State.reset.b.readBytes 0 State.reset.blen.toNat = some []) ∧
    busy.a.readBytes 0 busy.alen.toNat = some (List.replicate 32 1#8) ∧
    busy.b.readBytes 0 busy.blen.toNat = some (List.replicate 8 2#8) :=
  ⟨⟨rfl, rfl⟩, by decide +kernel, by decide +kernel⟩

theorem test_witness_SubkeyCommand : State.reset.rkv = false ∧ busy.rkv = true := ⟨rfl, rfl⟩

/-- `ALEN` of 31, 33, 32; without a key and with. -/
theorem test_witness_TagCommand :
    ((inA (List.replicate 31 0#8)).alen.toNat < 32 ∧ (inA (List.replicate 33 0#8)).alen.toNat % 16 ≠ 0) ∧
    (∃ s : State, 32 ≤ s.alen.toNat ∧ s.alen.toNat % 16 = 0 ∧ s.rkv = false) ∧
    ∃ data : List Block, 32 ≤ busy.alen.toNat ∧ busy.alen.toNat % 16 = 0 ∧ busy.rkv = true ∧
      busy.a.chunks 0 (busy.alen.toNat / 16) = some data :=
  ⟨by decide, ⟨{ busy with rkv := false }, by decide⟩, [Vector.replicate 16 1#8, Vector.replicate 16 1#8],
    by decide, by decide, rfl, by decide +kernel⟩

theorem test_witness_FieldHasUniqueInverses : (0x94#8 : Byte) ≠ 0x00#8 ∧ gfMul 0x00#8 0x57#8 = 0x00#8 := by decide

theorem test_witness_SubstitutionLaws : 0 < 16 ∧ 15 < 16 := by decide

theorem test_witness_RoundConstantEndsInItsIndex : 0 < 32 ∧ 31 < 32 := by decide

/-- One key, its own schedule, at the first and the last pair. -/
theorem test_witness_RoundKeyPairsDetermineTheKey :
    ∃ (mk mk' : MasterKey) (cs : RoundConstants), keySchedule mk cs = keySchedule mk' cs ∧ 0 < 5 ∧ 4 < 5 ∧
      (keySchedule mk cs)[0] = (keySchedule mk' cs)[0] ∧ (keySchedule mk cs)[1] = (keySchedule mk' cs)[1] ∧
      (keySchedule mk cs)[8] = (keySchedule mk' cs)[8] ∧ (keySchedule mk cs)[9] = (keySchedule mk' cs)[9] :=
  ⟨Vector.replicate 32 1#8, _, rcGen, rfl, by decide, by decide, rfl, rfl, rfl, rfl⟩

/-- A zero sum, a sum of 255 that fits one byte, and one of 256 that needs two. -/
theorem test_witness_AdderGivesMinimalExactSum :
    be [] + be [0x00#8] = 0 ∧ (be [0xFE#8] + be [0x01#8] ≠ 0 ∧ 1 ≤ 1 ∧ be [0xFE#8] + be [0x01#8] < 256 ^ 1) ∧
    (1 ≤ 2 ∧ be [0xFF#8] + be [0x01#8] < 256 ^ 2) := by decide

theorem test_witness_GammaChunkUsesItsCounter : 0 < [zeroBlock, zeroBlock].length ∧ 1 < [zeroBlock, zeroBlock].length := by decide

/-- Data that agree in one chunk and differ in another, of equal lengths. -/
theorem test_witness_GammaLaws :
    ∃ d e : List Block, d[1]? = e[1]? ∧ d[0]? ≠ e[0]? ∧ d.length = e.length :=
  ⟨[zeroBlock, zeroBlock], [blk 1, zeroBlock], rfl, by decide, rfl⟩

theorem test_witness_DoublingSkipsTheXorForTwoLastBytes : ∃ r : Block, r[15] ≠ 0x00#8 ∧ r[15] ≠ 0x80#8 :=
  ⟨blk 0x81, by decide⟩

end Sys2Proof.Tests
end

section
/-! SUPPORT. The decoder, said once (spec/30_encoding.md R81): the opcode field chooses the row, the row's reserved `zero` field
decides between the command and the error, and no other word decodes. Then the statements O5 (R83) and O2 (R84). -/

namespace Sys2Proof

variable {w : Word} {i j : Instr}

/-- Is the reserved `zero` field of the command's format clear in the word? Bits 23:16 in Format M, 23:0 in Format Z (R80). -/
def Instr.zeroFieldClear (w : Word) : Instr → Bool
  | .gfmul _ _ => w.extractLsb' 16 8 == 0#8
  | _ => w.extractLsb' 0 24 == 0#24

/-- The command with its operands taken from the word: only GFMUL has any (R82). -/
def Instr.withOperandsOf (w : Word) : Instr → Instr
  | .gfmul _ _ => .gfmul (w.extractLsb' 8 8) (w.extractLsb' 0 8)
  | i => i

@[simp] theorem Instr.withOperandsOf_opcode (w : Word) (i : Instr) : (i.withOperandsOf w).opcode = i.opcode := by
  cases i <;> rfl

@[simp] theorem Instr.withOperandsOf_pattern (w : Word) (i : Instr) : (i.withOperandsOf w).pattern = i.pattern := by
  cases i <;> rfl

@[simp] theorem Instr.withOperandsOf_zeroFieldClear (w : Word) (i : Instr) :
    (i.withOperandsOf w).zeroFieldClear w = i.zeroFieldClear w := by
  cases i <;> rfl

@[simp] theorem opcodeField_pattern (i : Instr) : opcodeField i.pattern = i.opcode := by
  cases i <;> simp [opcodeField, Instr.pattern, Instr.opcode]

/-- The opcode map has the opcodes 01 to 0F (R83). -/
theorem Instr.opcode_range (i : Instr) : 0x01#8 ≤ i.opcode ∧ i.opcode ≤ 0x0F#8 := by
  cases i <;> simp [Instr.opcode]

/-- Opcode 01 is the Format M row; above it every row is Format Z. -/
theorem Instr.zeroFieldClear_of_opcode_one (h : i.opcode = 0x01#8) :
    i.zeroFieldClear w = (w.extractLsb' 16 8 == 0#8) := by
  cases i with
  | gfmul a b => rfl
  | _ => cases h

theorem Instr.zeroFieldClear_of_two_le_opcode (h : 0x02#8 ≤ i.opcode) :
    i.zeroFieldClear w = (w.extractLsb' 0 24 == 0#24) := by
  cases i with
  | gfmul a b => exact absurd h (by simp [Instr.opcode])
  | _ => rfl

/-! The decoder by rows -/

/-- A row's opcode: its `zero` field decides (R81 steps 3 and 4). -/
theorem decode_of_opcodeField_eq (h : opcodeField w = i.opcode) :
    decode w = if i.zeroFieldClear w then .ok (i.withOperandsOf w) else .error .zeroFieldSet := by
  cases i <;> simp [decode, h, Instr.opcode, decodeM, decodeZ, Instr.zeroFieldClear, Instr.withOperandsOf]

/-- No row's opcode: no command (R81 step 2). -/
theorem decode_of_opcodeField_ne (h : ∀ i : Instr, opcodeField w ≠ i.opcode) :
    decode w = .error (.unknownOpcode (opcodeField w)) := by
  have hrows : ∀ i ∈ Instr.rows, opcodeField w ≠ i.opcode := fun i _ => h i
  simp only [Instr.rows, List.forall_mem_cons, Instr.opcode] at hrows
  simp [decode, hrows]

/-- What a word that decodes satisfies: it has the command's opcode and a clear `zero` field. -/
theorem opcodeField_and_zeroFieldClear_of_decode (h : decode w = .ok j) :
    opcodeField w = j.opcode ∧ j.zeroFieldClear w = true := by
  by_cases hop : ∃ i : Instr, opcodeField w = i.opcode
  · obtain ⟨i, hi⟩ := hop
    rw [decode_of_opcodeField_eq hi] at h
    split at h
    · next hz => cases h; simp [hi, hz]
    · cases h
  · rw [decode_of_opcodeField_ne (not_exists.mp hop)] at h
    cases h

/-- The decoder's side of R83's iff, by the fields of the word. -/
theorem exists_decode_row_iff (w : Word) (i : Instr) :
    (∃ j, decode w = .ok j ∧ j.pattern = i.pattern) ↔ opcodeField w = i.opcode ∧ i.zeroFieldClear w = true := by
  constructor
  · rintro ⟨j, hd, hp⟩
    have hop : opcodeField w = i.opcode := by
      rw [(opcodeField_and_zeroFieldClear_of_decode hd).1, ← opcodeField_pattern, hp, opcodeField_pattern]
    rw [decode_of_opcodeField_eq hop] at hd
    split at hd
    · next hz => exact ⟨hop, hz⟩
    · cases hd
  · rintro ⟨hop, hz⟩
    exact ⟨i.withOperandsOf w, by rw [decode_of_opcodeField_eq hop, if_pos hz], i.withOperandsOf_pattern w⟩

/-! Mask and match by fields -/

/-- Two bit vectors are equal iff their high parts and their low parts are. -/
theorem eq_iff_extractLsb'_eq {m n : Nat} {x y : BitVec (m + n)} :
    x = y ↔ x.extractLsb' n m = y.extractLsb' n m ∧ x.extractLsb' 0 n = y.extractLsb' 0 n := by
  constructor
  · rintro rfl
    exact ⟨rfl, rfl⟩
  · rintro ⟨hhi, hlo⟩
    rw [← BitVec.extractLsb'_append_extractLsb' (x := x), hhi, hlo, BitVec.extractLsb'_append_extractLsb']

/-- Every row's match value is its opcode above 24 zero bits (R83). -/
theorem Instr.pattern_extractLsb' (i : Instr) : i.pattern.extractLsb' 0 24 = 0#24 := by
  cases i <;> simp [Instr.pattern]

/-- Every row's mask keeps the whole opcode field. -/
theorem opcodeField_and_mask (w : Word) (i : Instr) : opcodeField (w &&& i.mask) = opcodeField w := by
  have hmask : opcodeField i.mask = BitVec.allOnes 8 := by cases i <;> simp [opcodeField, Instr.mask, BitVec.allOnes]
  rw [opcodeField, BitVec.extractLsb'_and]
  change opcodeField w &&& opcodeField i.mask = _
  rw [hmask, BitVec.and_allOnes]

/-- Below the opcode, a row's mask keeps its reserved `zero` field. -/
theorem and_mask_extractLsb'_eq_zero_iff (w : Word) (i : Instr) :
    (w &&& i.mask).extractLsb' 0 24 = 0#24 ↔ i.zeroFieldClear w = true := by
  have keep8 (x : Byte) : x &&& 0xFF#8 = x := BitVec.and_allOnes
  have keep24 (x : BitVec 24) : x &&& 0xFFFFFF#24 = x := BitVec.and_allOnes
  cases i with
  | gfmul a b =>
    rw [eq_iff_extractLsb'_eq (m := 8) (n := 16)]
    simp [BitVec.extractLsb'_and, Instr.mask, Instr.zeroFieldClear, keep8]
  | _ => simp [BitVec.extractLsb'_and, Instr.mask, Instr.zeroFieldClear, keep24]

/-- The table's side of R83's iff, by the same fields. -/
theorem and_mask_eq_pattern_iff (w : Word) (i : Instr) :
    w &&& i.mask = i.pattern ↔ opcodeField w = i.opcode ∧ i.zeroFieldClear w = true := by
  rw [eq_iff_extractLsb'_eq (m := 8) (n := 24), ← opcodeField, ← opcodeField, opcodeField_and_mask, opcodeField_pattern,
    i.pattern_extractLsb', and_mask_extractLsb'_eq_zero_iff]

/-- Settles O5: both sides say that the opcode field is the row's and the row's `zero` field is clear. -/
theorem decodeAgreesWithMaskAndMatch : Obligations.DecodeAgreesWithMaskAndMatch := by
  intro w i _
  rw [exists_decode_row_iff, and_mask_eq_pattern_iff]

end Sys2Proof

namespace Sys2Proof.Machine

/-- An illegal word raises IllegalCommand (R205). -/
theorem hostIssue_of_decode_ne_ok {w : Word} (s : State) (h : ∀ i, decode w ≠ .ok i) :
    hostIssue w s = .next (s.raise .illegalCommand) := by
  unfold hostIssue
  split
  · next i hd => exact absurd hd (h i)
  · rfl

/-- Settles O2: in each of the four cases a decoded command would contradict its opcode or its clear `zero` field. -/
theorem illegalWordsRaiseIllegalCommand : Obligations.IllegalWordsRaiseIllegalCommand := by
  intro s w hw
  refine hostIssue_of_decode_ne_ok s fun i hd => ?_
  obtain ⟨hop, hz⟩ := opcodeField_and_zeroFieldClear_of_decode hd
  obtain ⟨hlo, hhi⟩ := i.opcode_range
  rw [hop] at hw
  rcases hw with h0 | h10 | ⟨h2, -, hbits⟩ | ⟨h1, hbits⟩
  · exact absurd (h0 ▸ hlo) (by decide)
  · exact absurd (BitVec.le_trans h10 hhi) (by decide)
  · rw [Instr.zeroFieldClear_of_two_le_opcode h2] at hz
    exact hbits (eq_of_beq hz)
  · rw [Instr.zeroFieldClear_of_opcode_one h1] at hz
    exact hbits (eq_of_beq hz)

end Sys2Proof.Machine
end

section
/-! SUPPORT. The command GFMUL (spec/40_gf_multiplier.md R102): its word by the decoder's rows, then its effect. It settles O27. -/

namespace Sys2Proof

/-- GFMUL's word meets its row (R83), and its two low bytes are the operands it was built from (R81 step 3). -/
theorem decode_encode_gfmul (a b : Byte) : decode (encode (.gfmul a b)) = .ok (.gfmul a b) := by
  obtain ⟨-, hrow, -⟩ := Laws.EncodedWordMeetsItsRow.gfmul a b
  obtain ⟨hop, hzero⟩ := (and_mask_eq_pattern_iff _ _).mp hrow
  have ha : (encode (.gfmul a b)).extractLsb' 8 8 = a :=
    (BitVec.extractLsb'_append_eq_of_le (by decide)).trans BitVec.extractLsb'_append_eq_right
  have hb : (encode (.gfmul a b)).extractLsb' 0 8 = b := BitVec.extractLsb'_append_eq_right
  rw [decode_of_opcodeField_eq hop, if_pos hzero]
  simp only [Instr.withOperandsOf, ha, hb]

end Sys2Proof

namespace Sys2Proof.Machine

/-- GFMUL has no check to fail: in every state it ends with the field product as its result (R102). -/
theorem exec_gfmul (a b : Byte) (s : State) : exec (.gfmul a b) s = .next (s.succeed [gfMul a b]) := rfl

/-- Settles O27: the word is the encoder's, and the command succeeds with the one byte `gfMul a b`. -/
theorem gfmulCommand : Obligations.GfmulCommand := by
  intro s a b
  exact ⟨decode_encode_gfmul a b, exec_gfmul a b s⟩

end Sys2Proof.Machine
end

section
/-! SUPPORT. The substitution layer (spec/41_substitution.md R110 to R112): each function works on every byte alone, so its laws are
the two tables' laws, byte by byte. They settle O46. -/

namespace Sys2Proof.Machine

@[simp] theorem getElem_sub (x : Block) (i : Nat) (hi : i < 16) : (sub x)[i] = lookup Rom.PI x[i] := by
  simp [sub]

@[simp] theorem getElem_subInv (x : Block) (i : Nat) (hi : i < 16) : (subInv x)[i] = lookup Rom.PI_INV x[i] := by
  simp [subInv]

/-! The tables (R30, R31): mutually inverse, and their entries at 0 -/

/-- The one check of the listed values: `PI_INV` at the entries of `PI`, in their order, gives the bytes in theirs. -/
theorem PI_map_lookup_PI_INV : Rom.PI.toList.map (lookup Rom.PI_INV) = List.ofFn (BitVec.ofFin (w := 8)) := by
  decide +kernel

@[simp] theorem lookup_PI_INV_lookup_PI (v : Byte) : lookup Rom.PI_INV (lookup Rom.PI v) = v := by
  have hv := List.getElem_of_eq PI_map_lookup_PI_INV (i := v.toNat) (by simpa using v.isLt)
  rwa [List.getElem_map, Vector.getElem_toList, List.getElem_ofFn] at hv

/-- Having a left inverse, `PI` is injective, hence onto the bytes: it takes every byte as some `PI[w]`. -/
@[simp] theorem lookup_PI_lookup_PI_INV (v : Byte) : lookup Rom.PI (lookup Rom.PI_INV v) = v := by
  have hinj : Function.Injective (lookup Rom.PI) := Function.LeftInverse.injective lookup_PI_INV_lookup_PI
  obtain ⟨w, rfl⟩ := Finite.surjective_of_injective hinj v
  rw [lookup_PI_INV_lookup_PI]

theorem lookup_PI_zero : lookup Rom.PI 0x00#8 = 0xFC#8 := rfl

theorem lookup_PI_INV_zero : lookup Rom.PI_INV 0x00#8 = 0xA5#8 := rfl

/-! The laws of R112 -/

@[simp] theorem subInv_sub (x : Block) : subInv (sub x) = x := Vector.ext fun i hi => by simp

@[simp] theorem sub_subInv (x : Block) : sub (subInv x) = x := Vector.ext fun i hi => by simp

theorem sub_rev (x : Block) : sub (rev x) = rev (sub x) := Vector.ext fun i hi => by simp

theorem subInv_rev (x : Block) : subInv (rev x) = rev (subInv x) := Vector.ext fun i hi => by simp

theorem toList_sub_zeroBlock : (sub zeroBlock).toList = List.replicate 16 0xFC#8 := by
  simp [sub, zeroBlock, lookup_PI_zero]

theorem toList_subInv_zeroBlock : (subInv zeroBlock).toList = List.replicate 16 0xA5#8 := by
  simp [subInv, zeroBlock, lookup_PI_INV_zero]

/-- A function that is linear over XOR makes the zero block from the zero block, so its byte 0 there is 0. -/
theorem getElem_zero_of_map_xorBlock {f : Block → Block}
    (h : f (xorBlock zeroBlock zeroBlock) = xorBlock (f zeroBlock) (f zeroBlock)) : (f zeroBlock)[0] = 0x00#8 := by
  have hz : xorBlock zeroBlock zeroBlock = zeroBlock := by decide
  have h0 := congrArg (·[0]) h
  simpa [hz] using h0

theorem sub_not_linear : sub (xorBlock zeroBlock zeroBlock) ≠ xorBlock (sub zeroBlock) (sub zeroBlock) := fun h =>
  absurd (getElem_zero_of_map_xorBlock h) (by decide)

theorem subInv_not_linear : subInv (xorBlock zeroBlock zeroBlock) ≠ xorBlock (subInv zeroBlock) (subInv zeroBlock) := fun h =>
  absurd (getElem_zero_of_map_xorBlock h) (by decide)

/-- Settles O46 from the laws above; the zero block with itself is where linearity fails. -/
theorem substitutionLaws : Obligations.SubstitutionLaws :=
  ⟨fun x i hi => ⟨getElem_sub x i hi, getElem_subInv x i hi⟩,
    fun x => ⟨subInv_sub x, sub_subInv x⟩,
    fun x => ⟨sub_rev x, subInv_rev x⟩,
    ⟨zeroBlock, zeroBlock, sub_not_linear⟩,
    ⟨zeroBlock, zeroBlock, subInv_not_linear⟩,
    toList_sub_zeroBlock, toList_subInv_zeroBlock⟩

end Sys2Proof.Machine
end

section
/-! SUPPORT. The commands SUB and ISUB (spec/41_substitution.md R113, R114): their words by the decoder's rows, their effects by the
operand form "a block in `A`". They settle O32 and O33. -/

namespace Sys2Proof

/-- A row's match value has the row's opcode and a clear `zero` field, so it decodes to the row's command (R83). -/
theorem decode_pattern (i : Instr) : decode i.pattern = .ok (i.withOperandsOf i.pattern) := by
  have hzero : i.zeroFieldClear i.pattern = true := by cases i <;> simp [Instr.zeroFieldClear, Instr.pattern]
  rw [decode_of_opcodeField_eq (opcodeField_pattern i), if_pos hzero]

end Sys2Proof

namespace Sys2Proof.Machine

variable {s : State} {x : Block}

/-- Any other length fails the check of a single-block command (R202). -/
theorem onBlock_of_alen_ne (f : Block → List Byte) (h : s.alen ≠ 16#32) :
    onBlock f s = .next (s.raise .invalidBlockLength) := by
  simp [onBlock, badBlockLength, h]

/-- With the block `x` in `A` a single-block command ends with its result (R53). -/
theorem onBlock_of_memRead (f : Block → List Byte) (h : s.alen = 16#32) (hx : s.a.memRead 0 16 = some x) :
    onBlock f s = .next (s.succeed (f x)) := by
  simp [onBlock, badBlockLength, h, hx]

theorem exec_sub (s : State) : exec .sub s = onBlock (fun x => (sub x).toList) s := rfl

theorem exec_isub (s : State) : exec .isub s = onBlock (fun x => (subInv x).toList) s := rfl

/-- The result of a command whose output is a block, field by field: `OLEN` is 16. -/
theorem State.succeed_toList (s : State) (y : Block) :
    s.succeed y.toList = { s with o := Memory.holding y.toList, olen := 16#32, err := .ok } := by
  simp [State.succeed]

/-- What a single-block command does whose result is the block `f x`: its length check, else that block in `O`. -/
theorem onBlock_toList (f : Block → Block) (s : State) :
    (s.alen ≠ 16#32 → onBlock (fun x => (f x).toList) s = .next (s.raise .invalidBlockLength)) ∧
    ∀ x : Block, s.alen = 16#32 → s.a.memRead 0 16 = some x →
      onBlock (fun x => (f x).toList) s =
        .next { s with o := Memory.holding (f x).toList, olen := 16#32, err := .ok } :=
  ⟨onBlock_of_alen_ne _, fun x h hx => by rw [onBlock_of_memRead _ h hx, State.succeed_toList]⟩

/-- Settles O32: the word is SUB's row, and SUB is the single-block command of `sub`. -/
theorem subCommand : Obligations.SubCommand := by
  refine ⟨decode_pattern .sub, fun s => ?_⟩
  rw [exec_sub]
  exact onBlock_toList sub s

/-- Settles O33: the word is ISUB's row, and ISUB is the single-block command of `subInv`. -/
theorem isubCommand : Obligations.IsubCommand := by
  refine ⟨decode_pattern .isub, fun s => ?_⟩
  rw [exec_isub]
  exact onBlock_toList subInv s

end Sys2Proof.Machine
end

section
/-! SUPPORT. The four unit commands of the linear transform (spec/42_linear_transform.md R124 to R127): single-block commands whose
result is one byte (LFOLD, ILFOLD) or a block (LFWD, LINV). They settle O28, O29, O30 and O31. -/

namespace Sys2Proof.Machine

theorem exec_lfold (s : State) : exec .lfold s = onBlock (fun x => [lfold x]) s := rfl

theorem exec_ilfold (s : State) : exec .ilfold s = onBlock (fun x => [ilfold x]) s := rfl

theorem exec_lfwd (s : State) : exec .lfwd s = onBlock (fun x => (lin x).toList) s := rfl

theorem exec_linv (s : State) : exec .linv s = onBlock (fun x => (linInv x).toList) s := rfl

/-- What a single-block command does whose result is the byte `f x`: its length check, else that byte in `O`. -/
theorem onBlock_singleton (f : Block → Byte) (s : State) :
    (s.alen ≠ 16#32 → onBlock (fun x => [f x]) s = .next (s.raise .invalidBlockLength)) ∧
    ∀ x : Block, s.alen = 16#32 → s.a.memRead 0 16 = some x →
      onBlock (fun x => [f x]) s = .next { s with o := Memory.holding [f x], olen := 1#32, err := .ok } :=
  ⟨onBlock_of_alen_ne _, fun _ h hx => onBlock_of_memRead _ h hx⟩

/-- Settles O28: the word is LFOLD's row, and LFOLD is the single-block command of the byte `lfold`. -/
theorem lfoldCommand : Obligations.LfoldCommand := by
  refine ⟨decode_pattern .lfold, fun s => ?_⟩
  rw [exec_lfold]
  exact onBlock_singleton lfold s

/-- Settles O29: the word is ILFOLD's row, and ILFOLD is the single-block command of the byte `ilfold`. -/
theorem ilfoldCommand : Obligations.IlfoldCommand := by
  refine ⟨decode_pattern .ilfold, fun s => ?_⟩
  rw [exec_ilfold]
  exact onBlock_singleton ilfold s

/-- Settles O30: the word is LFWD's row, and LFWD is the single-block command of the block `lin`. -/
theorem lfwdCommand : Obligations.LfwdCommand := by
  refine ⟨decode_pattern .lfwd, fun s => ?_⟩
  rw [exec_lfwd]
  exact onBlock_toList lin s

/-- Settles O31: the word is LINV's row, and LINV is the single-block command of the block `linInv`. -/
theorem linvCommand : Obligations.LinvCommand := by
  refine ⟨decode_pattern .linv, fun s => ?_⟩
  rw [exec_linv]
  exact onBlock_toList linInv s

end Sys2Proof.Machine
end

section
/-! SUPPORT. The commands INIT and DERIVE (spec/43_round_constants_key_schedule.md R142, R146): each writes its key registers and
puts the same blocks in `O`. DERIVE's checks come in the order of its operand form. They settle O34 and O35. -/

namespace Sys2Proof.Machine

variable {i : Instr} {s t : State}

theorem exec_init (s : State) :
    exec .init s = .next ((s.setRoundConstants rcGen).succeed (blockBytes rcGen.toList)) := rfl

theorem exec_derive (s : State) : exec .derive s = onMasterKey keySchedule s := rfl

/-- The result of a command whose output is `n` blocks, field by field: `OLEN` is `16*n`. -/
theorem State.succeed_blockBytes {n : Nat} (s : State) (v : Vector Block n) :
    s.succeed (blockBytes v.toList) =
      { s with o := Memory.holding (blockBytes v.toList), olen := BitVec.ofNat 32 (16 * n), err := .ok } := by
  simp [State.succeed]

/-- Only INIT among the commands writes `RCV` (R25): every other form in which a command ends keeps it. -/
theorem rcv_eq_of_exec_of_ne_init (h : exec i s = .next t) (hi : i ≠ .init) : t.rcv = s.rcv := by
  cases exec_next h with
  | raised e _ => simp
  | result out _ _ => simp
  | constants hinit => exact absurd hinit hi
  | keys _ _ mk => simp

/-- Settles O34: the word is INIT's row, INIT has no check to fail, and no other command writes `RCV`. -/
theorem initCommand : Obligations.InitCommand := by
  refine ⟨decode_pattern .init, fun s => ⟨?_, fun i t h hs ht => ?_⟩⟩
  · rw [exec_init, State.succeed_blockBytes]
    rfl
  · by_contra hi
    have hkept := rcv_eq_of_exec_of_ne_init h hi
    simp [hs, ht] at hkept

/-- What a command on a master key does when it does not stop: its length check, then its readiness check (R206), else its round
keys in `RK` and in `O`. -/
theorem onMasterKey_spec (f : MasterKey → RoundConstants → RoundKeys) (s : State) :
    (s.alen ≠ 32#32 → onMasterKey f s = .next (s.raise .invalidKeyLength)) ∧
    (s.alen = 32#32 → s.rcv = false → onMasterKey f s = .next (s.raise .notReady)) ∧
    ∀ mk : MasterKey, s.alen = 32#32 → s.rcv = true → s.a.memRead 0 32 = some mk →
      onMasterKey f s = .next ((s.setRoundKeys (f mk s.rc)).succeed (blockBytes (f mk s.rc).toList)) := by
  rcases onMasterKey_cases f s with
    ⟨hlen, hend⟩ | ⟨hlen, hrcv, hend⟩ | ⟨hlen, hrcv, key, hkey, hend⟩ | ⟨hlen, hrcv, hnone, -⟩
  · simp [hlen, hend]
  · simp [hlen, hrcv, hend]
  · simp [hlen, hrcv, hkey, hend]
  · simp [hlen, hrcv, hnone]

/-- Settles O35: the word is DERIVE's row, and DERIVE is the master-key command of `keySchedule`. -/
theorem deriveCommand : Obligations.DeriveCommand := by
  refine ⟨decode_pattern .derive, fun s => ?_⟩
  obtain ⟨hlength, hready, hkeys⟩ := onMasterKey_spec keySchedule s
  refine ⟨hlength, hready, fun mk hlen hrcv hmk => ?_⟩
  rw [exec_derive, hkeys mk hlen hrcv hmk, State.succeed_blockBytes]
  rfl

end Sys2Proof.Machine
end

section
/-! SUPPORT. The commands ENC and DEC (spec/44_block_core.md R164, R165): their words by the decoder's rows, their checks and effects
by the operand form "a block in `A` with the round keys". They settle O36 and O37. -/

namespace Sys2Proof.Machine

theorem exec_enc (s : State) : exec .enc s = onKeyedBlock (fun x rk => (enc x rk).toList) s := rfl

theorem exec_dec (s : State) : exec .dec s = onKeyedBlock (fun x rk => (dec x rk).toList) s := rfl

/-- What a keyed-block command does when it does not stop, if its result is the block `f x rk`: its length check, then its
readiness check (R206), else that block in `O`. -/
theorem onKeyedBlock_toList (f : Block → RoundKeys → Block) (s : State) :
    (s.alen ≠ 16#32 → onKeyedBlock (fun x rk => (f x rk).toList) s = .next (s.raise .invalidBlockLength)) ∧
    (s.alen = 16#32 → s.rkv = false → onKeyedBlock (fun x rk => (f x rk).toList) s = .next (s.raise .notReady)) ∧
    ∀ x : Block, s.alen = 16#32 → s.rkv = true → s.a.memRead 0 16 = some x →
      onKeyedBlock (fun x rk => (f x rk).toList) s =
        .next { s with o := Memory.holding (f x s.rk).toList, olen := 16#32, err := .ok } := by
  rcases onKeyedBlock_cases (fun x rk => (f x rk).toList) s with
    ⟨hlen, hend⟩ | ⟨hlen, hrkv, hend⟩ | ⟨hlen, hrkv, y, hy, hend⟩ | ⟨hlen, hrkv, hnone, -⟩
  · simp [hlen, hend]
  · simp [hlen, hrkv, hend]
  · simp [hlen, hrkv, hy, hend, State.succeed_toList]
  · simp [hlen, hrkv, hnone]

/-- Settles O36: the word is ENC's row, and ENC is the keyed-block command of `enc`. -/
theorem encCommand : Obligations.EncCommand := by
  refine ⟨decode_pattern .enc, fun s => ?_⟩
  rw [exec_enc]
  exact onKeyedBlock_toList enc s

/-- Settles O37: the word is DEC's row, and DEC is the keyed-block command of `dec`. -/
theorem decCommand : Obligations.DecCommand := by
  refine ⟨decode_pattern .dec, fun s => ?_⟩
  rw [exec_dec]
  exact onKeyedBlock_toList dec s

end Sys2Proof.Machine
end

section
/-! SUPPORT. Big-endian exact addition (spec/45_gamma_and_adder.md R176): the search finds the least length that holds the sum, and
the sum is written out in that length. That its first byte is not 00 follows from the two: without it the sum would fit in one byte
less. It settles O53. -/

namespace Sys2Proof.Machine

/-! The search -/

variable {v fuel n k : Nat}

theorem le_leastLength (v fuel n : Nat) : n ≤ leastLength v fuel n := by
  induction fuel generalizing n with
  | zero => exact Nat.le_refl n
  | succ fuel ih =>
    simp only [leastLength]
    split
    · exact Nat.le_refl n
    · exact Nat.le_of_succ_le (ih (n + 1))

/-- A search whose last candidate holds `v` ends with a length that holds `v`. -/
theorem lt_pow_leastLength (h : v < 256 ^ (n + fuel)) : v < 256 ^ leastLength v fuel n := by
  induction fuel generalizing n with
  | zero => exact h
  | succ fuel ih =>
    simp only [leastLength]
    split
    · assumption
    · exact ih (by rwa [Nat.add_right_comm])

/-- The search never passes a length that holds `v`. -/
theorem leastLength_le_of_lt_pow (hn : n ≤ k) (h : v < 256 ^ k) : leastLength v fuel n ≤ k := by
  induction fuel generalizing n with
  | zero => exact hn
  | succ fuel ih =>
    simp only [leastLength]
    split
    · exact hn
    · next hv =>
      have hne : n ≠ k := fun e => hv (e ▸ h)
      exact ih (by omega)

theorem leastLength_zero (fuel n : Nat) : leastLength 0 fuel n = n := by
  cases fuel <;> simp [leastLength]

/-! The sum -/

/-- R174: the sum needs at most one byte more than the longer operand. -/
theorem be_add_be_lt (a b : List Byte) : be a + be b < 256 ^ (1 + max a.length b.length) := by
  have ha : be a < 256 ^ max a.length b.length :=
    (be_lt a).trans_le (Nat.pow_le_pow_right (by decide) (Nat.le_max_left _ _))
  have hb : be b < 256 ^ max a.length b.length :=
    (be_lt b).trans_le (Nat.pow_le_pow_right (by decide) (Nat.le_max_right _ _))
  rw [Nat.pow_add]
  omega

/-- The zero sum is no special case: the least length from one byte up that holds it is one. -/
theorem addBe_eq_beN (a b : List Byte) :
    addBe a b = beN (leastLength (be a + be b) (max a.length b.length) 1) (be a + be b) := by
  by_cases h : be a + be b = 0
  · simp [addBe, h, leastLength_zero, beN]
  · exact if_neg h

theorem addBe_length (a b : List Byte) :
    (addBe a b).length = leastLength (be a + be b) (max a.length b.length) 1 := by
  rw [addBe_eq_beN, beN_length]

@[simp] theorem be_addBe (a b : List Byte) : be (addBe a b) = be a + be b := by
  rw [addBe_eq_beN, be_beN (lt_pow_leastLength (be_add_be_lt a b))]

theorem one_le_addBe_length (a b : List Byte) : 1 ≤ (addBe a b).length := by
  rw [addBe_length]
  exact le_leastLength _ _ _

theorem addBe_length_le_of_lt_pow {a b : List Byte} (hn : 1 ≤ n) (h : be a + be b < 256 ^ n) : (addBe a b).length ≤ n := by
  rw [addBe_length]
  exact leastLength_le_of_lt_pow hn h

theorem addBe_of_sum_zero {a b : List Byte} (h : be a + be b = 0) : addBe a b = [0x00#8] := if_pos h

/-- A first byte 00 could be left out, and the rest would hold the sum in one byte less. -/
theorem addBe_head?_ne_zero {a b : List Byte} (h : be a + be b ≠ 0) : (addBe a b).head? ≠ some 0x00#8 := by
  intro h0
  obtain ⟨rest, hrest⟩ := List.head?_eq_some_iff.mp h0
  have hsum : be rest = be a + be b := by rw [← be_addBe, hrest]; simp [be]
  have hpos : 1 ≤ rest.length := by
    cases rest with
    | nil => exact absurd hsum.symm h
    | cons x t => simp
  have hle := addBe_length_le_of_lt_pow hpos (hsum ▸ be_lt rest)
  simp [hrest] at hle

/-- Settles O53: the value, the least length, and what they say of the first byte. -/
theorem adderGivesMinimalExactSum : Obligations.AdderGivesMinimalExactSum := fun a b =>
  ⟨be_addBe a b, one_le_addBe_length a b, addBe_of_sum_zero, addBe_head?_ne_zero, fun _ => addBe_length_le_of_lt_pow⟩

end Sys2Proof.Machine
end

section
/-! SUPPORT. The command GAMMA (spec/45_gamma_and_adder.md R173): its word by the decoder's rows, its checks and effect by the operand
form "data in `A`, sync in `B`, with the round keys". It settles O38. -/

namespace Sys2Proof.Machine

theorem exec_gamma (s : State) :
    exec .gamma s = onDataAndSync (fun data sync rk => blockBytes (gamma data sync rk)) s := rfl

@[simp] theorem gammaFrom_length (rk : RoundKeys) (ctr : Block) (data : List Block) :
    (gammaFrom rk ctr data).length = data.length := by
  induction data generalizing ctr with
  | nil => rfl
  | cons x data ih => simp [gammaFrom, ih]

@[simp] theorem gamma_length (data : List Block) (sync : Sync) (rk : RoundKeys) :
    (gamma data sync rk).length = data.length := gammaFrom_length _ _ _

theorem badGammaLength_eq_true {s : State} :
    badGammaLength s = true ↔ s.alen = 0#32 ∨ s.alen.toNat % 16 ≠ 0 ∨ s.blen ≠ 8#32 := by
  simp [badGammaLength, or_assoc]

/-- What a command on data and sync does when it does not stop: its length checks, then its readiness check (R206), else its
result. -/
theorem onDataAndSync_spec (f : List Block → Sync → RoundKeys → List Byte) (s : State) :
    (badGammaLength s = true → onDataAndSync f s = .next (s.raise .invalidInputLength)) ∧
    (badGammaLength s = false → s.rkv = false → onDataAndSync f s = .next (s.raise .notReady)) ∧
    ∀ (data : List Block) (sync : Sync), badGammaLength s = false → s.rkv = true →
      s.a.chunks 0 (s.alen.toNat / 16) = some data → s.b.memRead 0 8 = some sync →
      onDataAndSync f s = .next (s.succeed (f data sync s.rk)) := by
  rcases onDataAndSync_cases f s with
    ⟨hlen, hend⟩ | ⟨hlen, hrkv, hend⟩ | ⟨hlen, hrkv, x, y, hx, hy, hend⟩ | ⟨hlen, hrkv, hnone | hnone, -⟩
  · simp [hlen, hend]
  · simp [hlen, hrkv, hend]
  · simp [hlen, hrkv, hx, hy, hend]
  · simp [hlen, hrkv, hnone]
  · simp [hlen, hrkv, hnone]

/-- Chunks as many as `A` holds, written out again, are `ALEN` bytes when `ALEN` is a multiple of 16 (R55). -/
theorem State.succeed_blockBytes_of_length {s : State} {l : List Block} (h16 : s.alen.toNat % 16 = 0)
    (hl : l.length = s.alen.toNat / 16) :
    s.succeed (blockBytes l) = { s with o := Memory.holding (blockBytes l), olen := s.alen, err := .ok } := by
  have hbytes : (blockBytes l).length = s.alen.toNat := by rw [blockBytes_length]; omega
  simp [State.succeed, hbytes]

/-- Settles O38: the word is GAMMA's row, and GAMMA is the data-and-sync command of `gamma`, which keeps the number of chunks. -/
theorem gammaCommand : Obligations.GammaCommand := by
  refine ⟨decode_pattern .gamma, fun s => ?_⟩
  obtain ⟨hlength, hready, hresult⟩ := onDataAndSync_spec (fun data sync rk => blockBytes (gamma data sync rk)) s
  refine ⟨fun hbad => hlength (badGammaLength_eq_true.mpr hbad),
    fun h0 h16 hb => hready (badGammaLength_eq_false.mpr ⟨h0, h16, hb⟩),
    fun data sync h0 h16 hb hrkv hdata hsync => ?_⟩
  have hlen : (gamma data sync s.rk).length = s.alen.toNat / 16 := by rw [gamma_length, Memory.chunks_length hdata]
  rw [exec_gamma, hresult data sync (badGammaLength_eq_false.mpr ⟨h0, h16, hb⟩) hrkv hdata hsync,
    State.succeed_blockBytes_of_length h16 hlen]

end Sys2Proof.Machine
end

section
/-! SUPPORT. The commands SUBKEY and TAG (spec/46_imito.md R193, R194): their words by the decoder's rows, their checks and effects by
the operand forms "the round keys alone" and "a message in `A` with the round keys". They settle O40 and O41. -/

namespace Sys2Proof.Machine

theorem exec_subkey (s : State) : exec .subkey s = onKeys (fun rk => (subkey rk).toList) s := rfl

theorem exec_tag (s : State) : exec .tag s = onMessage (fun data rk => (tag data rk).toList) s := rfl

/-- Settles O40: the word is SUBKEY's row, and SUBKEY is the command on the round keys alone of `subkey`. -/
theorem subkeyCommand : Obligations.SubkeyCommand := by
  refine ⟨decode_pattern .subkey, fun s => ?_⟩
  rw [exec_subkey]
  rcases onKeys_cases (fun rk => (subkey rk).toList) s with ⟨hrkv, hend⟩ | ⟨hrkv, hend⟩
  · simp [hrkv, hend, State.raise]
  · simp [hrkv, hend, State.succeed_toList]

theorem badTagLength_eq_true {s : State} :
    badTagLength s = true ↔ s.alen.toNat < 32 ∨ s.alen.toNat % 16 ≠ 0 := by
  simp [badTagLength]

/-- What a command on a message does when it does not stop: its length checks, then its readiness check (R206), else its
result. -/
theorem onMessage_spec (f : List Block → RoundKeys → List Byte) (s : State) :
    (badTagLength s = true → onMessage f s = .next (s.raise .invalidInputLength)) ∧
    (badTagLength s = false → s.rkv = false → onMessage f s = .next (s.raise .notReady)) ∧
    ∀ data : List Block, badTagLength s = false → s.rkv = true → s.a.chunks 0 (s.alen.toNat / 16) = some data →
      onMessage f s = .next (s.succeed (f data s.rk)) := by
  rcases onMessage_cases f s with
    ⟨hlen, hend⟩ | ⟨hlen, hrkv, hend⟩ | ⟨hlen, hrkv, x, hx, hend⟩ | ⟨hlen, hrkv, hnone, -⟩
  · simp [hlen, hend]
  · simp [hlen, hrkv, hend]
  · simp [hlen, hrkv, hx, hend]
  · simp [hlen, hrkv, hnone]

/-- The result of a command whose output is a tag, field by field: `OLEN` is 8. -/
theorem State.succeed_tag (s : State) (y : Tag) :
    s.succeed y.toList = { s with o := Memory.holding y.toList, olen := 8#32, err := .ok } := by
  simp [State.succeed]

/-- Settles O41: the word is TAG's row, and TAG is the message command of `tag`. -/
theorem tagCommand : Obligations.TagCommand := by
  refine ⟨decode_pattern .tag, fun s => ?_⟩
  obtain ⟨hlength, hready, hresult⟩ := onMessage_spec (fun data rk => (tag data rk).toList) s
  refine ⟨fun hbad => hlength (badTagLength_eq_true.mpr hbad),
    fun h32 h16 => hready (badTagLength_eq_false.mpr ⟨h32, h16⟩), fun data h32 h16 hrkv hdata => ?_⟩
  rw [exec_tag, hresult data (badTagLength_eq_false.mpr ⟨h32, h16⟩) hrkv hdata, State.succeed_tag]

end Sys2Proof.Machine
end

section
/-! SUPPORT. The doubling function (spec/46_imito.md R190). Each byte of the shift keeps what the doubled byte leaves below 256 and
takes in the top bit of the byte after it; so the carries between the bytes cancel in the sum, and only the one out of byte 0 is lost.
It settles O58. -/

namespace Sys2Proof.Machine

/-- One byte of the shift: `x` one bit to the left, with bit 7 of the byte `y` after it (R190). -/
def shiftByte (x y : Byte) : Byte := (x <<< 1) ||| (y >>> 7)

theorem toList_shiftLeft1 (r : Block) :
    (shiftLeft1 r).toList = List.zipWith shiftByte r.toList (r.toList.tail ++ [0x00#8]) := rfl

/-- The byte with the bit it shifts out is twice `x` with the bit it takes in. -/
theorem toNat_shiftByte_add_carry (x y : Byte) :
    (shiftByte x y).toNat + x.toNat / 128 * 256 = 2 * x.toNat + y.toNat / 128 := by
  have hy : y.toNat / 128 < 2 ^ 1 := by have := y.isLt; omega
  have hx : x.toNat * 2 % 256 = 2 * (x.toNat % 128) := by omega
  have hor : (shiftByte x y).toNat = 2 ^ 1 * (x.toNat % 128) + y.toNat / 128 := by
    rw [Nat.two_pow_add_eq_or_of_lt hy]
    simp [shiftByte, Nat.shiftLeft_eq, Nat.shiftRight_eq_div_pow, hx]
  omega

/-- The shifted bytes with the bit they lose are twice the bytes. -/
theorem be_zipWith_shiftByte_add_carry (x : Byte) (s : List Byte) :
    be (List.zipWith shiftByte (x :: s) (s ++ [0x00#8])) + x.toNat / 128 * 256 ^ (s.length + 1) = 2 * be (x :: s) := by
  induction s generalizing x with
  | nil =>
    have h := toNat_shiftByte_add_carry x 0x00#8
    simpa [be] using h
  | cons y t ih =>
    have hcarry := toNat_shiftByte_add_carry x y
    have hrest := ih y
    have hlen : (List.zipWith shiftByte (y :: t) (t ++ [0x00#8])).length = t.length + 1 := by simp
    calc be (List.zipWith shiftByte (x :: y :: t) (y :: t ++ [0x00#8])) + x.toNat / 128 * 256 ^ (t.length + 1 + 1)
        = ((shiftByte x y).toNat + x.toNat / 128 * 256) * 256 ^ (t.length + 1) +
            be (List.zipWith shiftByte (y :: t) (t ++ [0x00#8])) := by
          simp only [List.cons_append, List.zipWith_cons_cons, be] at hlen ⊢
          rw [hlen]
          ring
      _ = 2 * x.toNat * 256 ^ (t.length + 1) +
            (be (List.zipWith shiftByte (y :: t) (t ++ [0x00#8])) + y.toNat / 128 * 256 ^ (t.length + 1)) := by
          rw [hcarry]
          ring
      _ = 2 * be (x :: y :: t) := by
          rw [hrest]
          simp only [be, List.length_cons]
          ring

/-- The shift doubles the value and loses what does not fit in the sequence (R190). -/
theorem be_zipWith_shiftByte (l : List Byte) :
    be (List.zipWith shiftByte l (l.tail ++ [0x00#8])) = 2 * be l % 256 ^ l.length := by
  cases l with
  | nil => rfl
  | cons x s =>
    have hlt : be (List.zipWith shiftByte (x :: s) (s ++ [0x00#8])) < 256 ^ (s.length + 1) := by
      simpa using be_lt (List.zipWith shiftByte (x :: s) (s ++ [0x00#8]))
    rw [← be_zipWith_shiftByte_add_carry x s, List.length_cons, Nat.add_mul_mod_self_right]
    exact (Nat.mod_eq_of_lt hlt).symm

/-- Settles O58: the shift is the shift of the sixteen bytes, and the test on the last byte is the definition's own. -/
theorem doublingTestsTheShiftedLastByte : Obligations.DoublingTestsTheShiftedLastByte := by
  refine fun r => ⟨?_, rfl⟩
  rw [toList_shiftLeft1, be_zipWith_shiftByte, Vector.length_toList, show (256 : Nat) ^ 16 = 2 ^ 128 by norm_num]

end Sys2Proof.Machine
end

section
/-! SUPPORT. The accumulator of the tag (spec/46_imito.md R192): a chunk with others after it is XORed in and encrypted, so the chunks
before the last are a left fold. It settles O60. -/

namespace Sys2Proof.Machine

theorem tagFrom_singleton (rk : RoundKeys) (acc x : Block) :
    tagFrom rk acc [x] = enc (xorBlock (xorBlock acc x) (subkey rk)) rk := rfl

theorem tagFrom_cons_of_ne_nil {rk : RoundKeys} {acc x : Block} {data : List Block} (h : data ≠ []) :
    tagFrom rk acc (x :: data) = tagFrom rk (enc (xorBlock acc x) rk) data := by
  cases data with
  | nil => exact absurd rfl h
  | cons y data => rfl

theorem tagFrom_append_singleton (rk : RoundKeys) (acc last : Block) (middle : List Block) :
    tagFrom rk acc (middle ++ [last]) =
      enc (xorBlock (xorBlock (middle.foldl (fun acc x => enc (xorBlock acc x) rk) acc) last) (subkey rk)) rk := by
  induction middle generalizing acc with
  | nil => exact tagFrom_singleton rk acc last
  | cons x middle ih => rw [List.cons_append, tagFrom_cons_of_ne_nil (by simp), ih, List.foldl_cons]

theorem toList_tag_cons (x : Block) (data : List Block) (rk : RoundKeys) :
    (tag (x :: data) rk).toList = (tagFrom rk (enc x rk) data).toList.take 8 := rfl

/-- Settles O60: after the first chunk's encryption the accumulator folds the middle chunks and ends with the last. -/
theorem tagChainsTheChunks : Obligations.TagChainsTheChunks := fun first last middle rk => by
  rw [toList_tag_cons, tagFrom_append_singleton]

end Sys2Proof.Machine
end

section
/-! SUPPORT. The checks of the commands (spec/60_exceptions.md R206, R207): for each command, if R212's table gives a code other than
`ok`, the command raises that code, before it reads any operand byte. It settles O15. -/

namespace Sys2Proof.Machine

variable {s : State}

/-- R206's order: what raises `e` when its length check fails, and NotReady when that passes and its readiness check fails, raises
the code of the first check that fails. -/
theorem eq_raise_of_check_fails {badLength unready : Prop} [Decidable badLength] [Decidable unready] {e : ErrCode} {r : Result}
    (hlength : badLength → r = .next (s.raise e)) (hready : ¬badLength → unready → r = .next (s.raise .notReady))
    (hfail : (if badLength then e else if unready then .notReady else .ok) ≠ .ok) :
    r = .next (s.raise (if badLength then e else if unready then .notReady else .ok)) := by
  by_cases hbad : badLength
  · rw [if_pos hbad]
    exact hlength hbad
  · rw [if_neg hbad] at hfail ⊢
    by_cases hun : unready
    · rw [if_pos hun]
      exact hready hbad hun
    · exact absurd (if_neg hun) hfail

/-- A single-block command has the length check alone (R202). -/
theorem onBlock_of_check_fails (f : Block → List Byte)
    (hfail : (if s.alen = 16#32 then ErrCode.ok else .invalidBlockLength) ≠ .ok) :
    onBlock f s = .next (s.raise (if s.alen = 16#32 then .ok else .invalidBlockLength)) := by
  by_cases hlen : s.alen = 16#32
  · exact absurd (if_pos hlen) hfail
  · rw [if_neg hlen]
    exact onBlock_of_alen_ne f hlen

/-- A command on the round keys alone has the readiness check alone (R204). -/
theorem onKeys_of_check_fails (f : RoundKeys → List Byte) (hfail : (if s.rkv = false then ErrCode.notReady else .ok) ≠ .ok) :
    onKeys f s = .next (s.raise (if s.rkv = false then .notReady else .ok)) := by
  rcases onKeys_cases f s with ⟨hrkv, hend⟩ | ⟨hrkv, -⟩
  · rw [if_pos hrkv]
    exact hend
  · exact absurd (if_neg (by simp [hrkv])) hfail

theorem onKeyedBlock_of_check_fails (f : Block → RoundKeys → Block)
    (hfail : (if s.alen ≠ 16#32 then ErrCode.invalidBlockLength else if s.rkv = false then .notReady else .ok) ≠ .ok) :
    onKeyedBlock (fun x rk => (f x rk).toList) s =
      .next (s.raise (if s.alen ≠ 16#32 then .invalidBlockLength else if s.rkv = false then .notReady else .ok)) := by
  obtain ⟨hlength, hready, -⟩ := onKeyedBlock_toList f s
  exact eq_raise_of_check_fails hlength (fun hlen => hready (not_not.mp hlen)) hfail

/-- A command some check of which fails raises the code of the first one that fails, whatever its operand bytes are (R206, R207). -/
theorem exec_of_expectedCode_ne_ok {i : Instr} (hfail : expectedCode s i ≠ .ok) :
    exec i s = .next (s.raise (expectedCode s i)) := by
  cases i with
  | gfmul a b => exact absurd rfl hfail
  | init => exact absurd rfl hfail
  | addbe => exact absurd rfl hfail
  | lfold => exact onBlock_of_check_fails _ hfail
  | ilfold => exact onBlock_of_check_fails _ hfail
  | lfwd => exact onBlock_of_check_fails _ hfail
  | linv => exact onBlock_of_check_fails _ hfail
  | sub => exact onBlock_of_check_fails _ hfail
  | isub => exact onBlock_of_check_fails _ hfail
  | derive =>
    obtain ⟨hlength, hready, -⟩ := onMasterKey_spec keySchedule s
    exact eq_raise_of_check_fails hlength (fun hlen => hready (not_not.mp hlen)) hfail
  | enc => exact onKeyedBlock_of_check_fails enc hfail
  | dec => exact onKeyedBlock_of_check_fails dec hfail
  | gamma =>
    obtain ⟨hlength, hready, -⟩ := onDataAndSync_spec (fun data sync rk => blockBytes (gamma data sync rk)) s
    exact eq_raise_of_check_fails (fun hbad => hlength (badGammaLength_eq_true.mpr hbad))
      (fun hlen => hready (eq_false_of_ne_true (mt badGammaLength_eq_true.mp hlen))) hfail
  | subkey => exact onKeys_of_check_fails (fun rk => (subkey rk).toList) hfail
  | tag =>
    obtain ⟨hlength, hready, -⟩ := onMessage_spec (fun data rk => (tag data rk).toList) s
    exact eq_raise_of_check_fails (fun hbad => hlength (badTagLength_eq_true.mpr hbad))
      (fun hlen => hready (eq_false_of_ne_true (mt badTagLength_eq_true.mp hlen))) hfail

/-- Settles O15: a command whose check fails raises its code, and an illegal word raises IllegalCommand. -/
theorem failedCheckOnlyReports : Obligations.FailedCheckOnlyReports :=
  ⟨fun _ _ hfail => exec_of_expectedCode_ne_ok hfail,
    fun s _ _ hillegal => hostIssue_of_decode_ne_ok s fun i hlegal => by simp [hillegal] at hlegal⟩

end Sys2Proof.Machine
end

section
/-! SUPPORT. Encoder and decoder undo each other (spec/30_encoding.md R80 to R83). The encoder's word meets the command's row, so it
decodes to the command with the operands found in that word; and a word that decodes has the same fields as the encoder's word. They
settle O3 and O4. -/

namespace Sys2Proof

variable {w : Word} {i : Instr}

/-- The encoder's word of a Format Z command is its row's match value. -/
theorem encode_eq_pattern (hi : ∀ a b, i ≠ .gfmul a b) : encode i = i.pattern := by
  cases i with
  | gfmul a b => exact absurd rfl (hi a b)
  | _ => rfl

/-- Format Z commands have no operand to take from a word. -/
theorem Instr.withOperandsOf_eq_self (w : Word) (hi : ∀ a b, i ≠ .gfmul a b) : i.withOperandsOf w = i := by
  cases i with
  | gfmul a b => exact absurd rfl (hi a b)
  | _ => rfl

theorem decode_encode (i : Instr) : decode (encode i) = .ok i := by
  by_cases hi : ∃ a b, i = .gfmul a b
  · obtain ⟨a, b, rfl⟩ := hi
    exact decode_encode_gfmul a b
  · simp only [not_exists] at hi
    rw [encode_eq_pattern hi, decode_pattern, Instr.withOperandsOf_eq_self _ hi]

/-- Settles O3: the encoder's word meets its command's row; well-formedness asks nothing (R82). -/
theorem decodeInvertsEncode : Obligations.DecodeInvertsEncode := fun i _ => decode_encode i

/-- Two words that decode to one command have the same opcode, zero field and operands, which are all their bits. -/
theorem decode_ok_injective {v w : Word} {i : Instr} (hv : decode v = .ok i) (hw : decode w = .ok i) : v = w := by
  obtain ⟨hopv, hzv⟩ := opcodeField_and_zeroFieldClear_of_decode hv
  obtain ⟨hopw, hzw⟩ := opcodeField_and_zeroFieldClear_of_decode hw
  rw [decode_of_opcodeField_eq hopv, if_pos hzv, Except.ok.injEq] at hv
  rw [decode_of_opcodeField_eq hopw, if_pos hzw, Except.ok.injEq] at hw
  refine eq_iff_extractLsb'_eq (m := 8) (n := 24) |>.mpr ⟨hopv.trans hopw.symm, ?_⟩
  cases i with
  | gfmul a b =>
    obtain ⟨hav, hbv⟩ := Instr.gfmul.inj hv
    obtain ⟨haw, hbw⟩ := Instr.gfmul.inj hw
    have hzero : v.extractLsb' 16 8 = w.extractLsb' 16 8 := (eq_of_beq hzv).trans (eq_of_beq hzw).symm
    have hlow : v.extractLsb' 0 16 = w.extractLsb' 0 16 := by
      rw [eq_iff_extractLsb'_eq (m := 8) (n := 8)]
      simp [hav, hbv, haw, hbw]
    rw [eq_iff_extractLsb'_eq (m := 8) (n := 16)]
    simp [hzero, hlow]
  | _ => exact (eq_of_beq hzv).trans (eq_of_beq hzw).symm

/-- Settles O4: the word and the encoder's word decode to one command. -/
theorem encodeInvertsDecode : Obligations.EncodeInvertsDecode := fun _ i h => decode_ok_injective (decode_encode i) h

end Sys2Proof
end

section
/-! SUPPORT. What a command does, in one equation: it raises the code of R212's table, or its checks pass and it ends with its output, or
an operand byte holds no value. The output is the function of the operands that the command's rule gives; INIT and DERIVE also write
their key registers. -/

namespace Sys2Proof.Machine

variable {s t : State} {i : Instr}

/-- How a command ends whose checks pass: with its output, if it could read its operands. -/
def State.endWith (s : State) : Option (List Byte) → Result
  | some out => .next (s.succeed out)
  | none => .fault .byteHoldsNoValue

/-- The bytes a command writes to `O` when its checks pass, if its operand bytes hold values (the rules of R51's commands). -/
def commandOutput (s : State) : Instr → Option (List Byte)
  | .gfmul a b => some [gfMul a b]
  | .lfold => (s.a.memRead 0 16).map fun x => [lfold x]
  | .ilfold => (s.a.memRead 0 16).map fun x => [ilfold x]
  | .lfwd => (s.a.memRead 0 16).map fun x => (lin x).toList
  | .linv => (s.a.memRead 0 16).map fun x => (linInv x).toList
  | .sub => (s.a.memRead 0 16).map fun x => (sub x).toList
  | .isub => (s.a.memRead 0 16).map fun x => (subInv x).toList
  | .init => some (blockBytes rcGen.toList)
  | .derive => (s.a.memRead 0 32).map fun mk => blockBytes (keySchedule mk s.rc).toList
  | .enc => (s.a.memRead 0 16).map fun x => (enc x s.rk).toList
  | .dec => (s.a.memRead 0 16).map fun x => (dec x s.rk).toList
  | .gamma => (s.a.chunks 0 (s.alen.toNat / 16)).bind fun data =>
      (s.b.memRead 0 8).map fun sync => blockBytes (gamma data sync s.rk)
  | .addbe => (s.a.readBytes 0 s.alen.toNat).bind fun x => (s.b.readBytes 0 s.blen.toNat).map fun y => addBe x y
  | .subkey => some (subkey s.rk).toList
  | .tag => (s.a.chunks 0 (s.alen.toNat / 16)).map fun data => (tag data s.rk).toList

/-- The state with the key registers a successful command leaves (R142, R146). -/
def State.writeKeyRegisters (s : State) : Instr → State
  | .init => s.setRoundConstants rcGen
  | .derive => match s.a.memRead 0 32 with
    | some key => s.setRoundKeys (keySchedule key s.rc)
    | none => s
  | _ => s

/-! Each operand form with its checks passed -/

theorem onBlock_eq_endWith (f : Block → List Byte) (h : s.alen = 16#32) :
    onBlock f s = s.endWith ((s.a.memRead 0 16).map f) := by
  rcases onBlock_cases f s with ⟨hbad, -⟩ | ⟨-, x, hx, hend⟩ | ⟨-, hnone, hend⟩
  · exact absurd h hbad
  · rw [hend, hx]; rfl
  · rw [hend, hnone]; rfl

theorem onKeyedBlock_eq_endWith (f : Block → RoundKeys → List Byte) (h : s.alen = 16#32) (hk : s.rkv = true) :
    onKeyedBlock f s = s.endWith ((s.a.memRead 0 16).map fun x => f x s.rk) := by
  rcases onKeyedBlock_cases f s with ⟨hbad, -⟩ | ⟨-, hbad, -⟩ | ⟨-, -, x, hx, hend⟩ | ⟨-, -, hnone, hend⟩
  · exact absurd h hbad
  · simp [hk] at hbad
  · rw [hend, hx]; rfl
  · rw [hend, hnone]; rfl

theorem onKeys_eq_endWith (f : RoundKeys → List Byte) (hk : s.rkv = true) : onKeys f s = s.endWith (some (f s.rk)) := by
  rcases onKeys_cases f s with ⟨hbad, -⟩ | ⟨-, hend⟩
  · simp [hk] at hbad
  · exact hend

theorem onMasterKey_eq_endWith (h : s.alen = 32#32) (hc : s.rcv = true) :
    onMasterKey keySchedule s = (s.writeKeyRegisters .derive).endWith (commandOutput s .derive) := by
  rcases onMasterKey_cases keySchedule s with ⟨hbad, -⟩ | ⟨-, hbad, -⟩ | ⟨-, -, mk, hmk, hend⟩ | ⟨-, -, hnone, hend⟩
  · exact absurd h hbad
  · simp [hc] at hbad
  · simp [hend, State.writeKeyRegisters, commandOutput, hmk, State.endWith]
  · simp [hend, commandOutput, hnone, State.endWith]

theorem onDataAndSync_eq_endWith (f : List Block → Sync → RoundKeys → List Byte) (h : badGammaLength s = false)
    (hk : s.rkv = true) :
    onDataAndSync f s = s.endWith
      ((s.a.chunks 0 (s.alen.toNat / 16)).bind fun data => (s.b.memRead 0 8).map fun sync => f data sync s.rk) := by
  rcases onDataAndSync_cases f s with
    ⟨hbad, -⟩ | ⟨-, hbad, -⟩ | ⟨-, -, data, sync, hdata, hsync, hend⟩ | ⟨-, -, hnone | hnone, hend⟩
  · simp [h] at hbad
  · simp [hk] at hbad
  · rw [hend, hdata, hsync]; rfl
  · rw [hend, hnone]; rfl
  · rw [hend, hnone]; cases s.a.chunks 0 (s.alen.toNat / 16) <;> rfl

theorem onMessage_eq_endWith (f : List Block → RoundKeys → List Byte) (h : badTagLength s = false) (hk : s.rkv = true) :
    onMessage f s = s.endWith ((s.a.chunks 0 (s.alen.toNat / 16)).map fun data => f data s.rk) := by
  rcases onMessage_cases f s with ⟨hbad, -⟩ | ⟨-, hbad, -⟩ | ⟨-, -, data, hdata, hend⟩ | ⟨-, -, hnone, hend⟩
  · simp [h] at hbad
  · simp [hk] at hbad
  · rw [hend, hdata]; rfl
  · rw [hend, hnone]; rfl

theorem onTwoSequences_eq_endWith (f : List Byte → List Byte → List Byte) (s : State) :
    onTwoSequences f s = s.endWith
      ((s.a.readBytes 0 s.alen.toNat).bind fun x => (s.b.readBytes 0 s.blen.toNat).map fun y => f x y) := by
  rcases onTwoSequences_cases f s with ⟨x, y, hx, hy, hend⟩ | ⟨hnone | hnone, hend⟩
  · rw [hend, hx, hy]; rfl
  · rw [hend, hnone]; rfl
  · rw [hend, hnone]; cases s.a.readBytes 0 s.alen.toNat <;> rfl

/-! R212's table read backwards: the code is 0 exactly when the checks pass -/

theorem lengthCheck_eq_ok {p : Prop} [Decidable p] {e : ErrCode} (he : e ≠ .ok) :
    (if p then ErrCode.ok else e) = .ok ↔ p := by
  by_cases hp : p <;> simp [hp, he]

theorem lengthThenReady_eq_ok {p : Prop} [Decidable p] {b : Bool} {e : ErrCode} (he : e ≠ .ok) :
    (if p then e else if b = false then .notReady else .ok) = ErrCode.ok ↔ ¬p ∧ b = true := by
  by_cases hp : p <;> cases b <;> simp [hp, he]

/-- What the checks of a command ask of its operands and of the valid flags (R201 to R204). -/
def checksPass (s : State) : Instr → Prop
  | .gfmul _ _ => True
  | .init => True
  | .addbe => True
  | .derive => s.alen = 32#32 ∧ s.rcv = true
  | .enc => s.alen = 16#32 ∧ s.rkv = true
  | .dec => s.alen = 16#32 ∧ s.rkv = true
  | .gamma => badGammaLength s = false ∧ s.rkv = true
  | .subkey => s.rkv = true
  | .tag => badTagLength s = false ∧ s.rkv = true
  | .lfold | .ilfold | .lfwd | .linv | .sub | .isub => s.alen = 16#32

theorem expectedCode_eq_ok : expectedCode s i = .ok ↔ checksPass s i := by
  cases i with
  | gfmul a b => simp [expectedCode, checksPass]
  | init => simp [expectedCode, checksPass]
  | addbe => simp [expectedCode, checksPass]
  | derive => rw [expectedCode, lengthThenReady_eq_ok (by decide), not_not, checksPass]
  | enc => rw [expectedCode, lengthThenReady_eq_ok (by decide), not_not, checksPass]
  | dec => rw [expectedCode, lengthThenReady_eq_ok (by decide), not_not, checksPass]
  | gamma =>
    rw [expectedCode, lengthThenReady_eq_ok (by decide), ← badGammaLength_eq_true, Bool.not_eq_true, checksPass]
  | subkey => cases h : s.rkv <;> simp [expectedCode, checksPass, h]
  | tag => rw [expectedCode, lengthThenReady_eq_ok (by decide), ← badTagLength_eq_true, Bool.not_eq_true, checksPass]
  | _ => exact lengthCheck_eq_ok (e := .invalidBlockLength) (by decide)

/-- A command whose checks pass ends with its output, if its operand bytes hold values. -/
theorem exec_of_expectedCode_ok (h : expectedCode s i = .ok) :
    exec i s = (s.writeKeyRegisters i).endWith (commandOutput s i) := by
  have hpass := expectedCode_eq_ok.mp h
  cases i with
  | gfmul a b => rfl
  | init => rfl
  | lfold => exact onBlock_eq_endWith _ hpass
  | ilfold => exact onBlock_eq_endWith _ hpass
  | lfwd => exact onBlock_eq_endWith _ hpass
  | linv => exact onBlock_eq_endWith _ hpass
  | sub => exact onBlock_eq_endWith _ hpass
  | isub => exact onBlock_eq_endWith _ hpass
  | derive => exact onMasterKey_eq_endWith hpass.1 hpass.2
  | enc => exact onKeyedBlock_eq_endWith (fun x rk => (enc x rk).toList) hpass.1 hpass.2
  | dec => exact onKeyedBlock_eq_endWith (fun x rk => (dec x rk).toList) hpass.1 hpass.2
  | gamma => exact onDataAndSync_eq_endWith (fun data sync rk => blockBytes (gamma data sync rk)) hpass.1 hpass.2
  | addbe => exact onTwoSequences_eq_endWith addBe s
  | subkey => exact onKeys_eq_endWith (fun rk => (subkey rk).toList) hpass
  | tag => exact onMessage_eq_endWith (fun data rk => (tag data rk).toList) hpass.1 hpass.2

/-- Everything a command that goes on can have done: raised the table's code, or passed its checks and written its output. -/
theorem exec_eq_next_iff :
    exec i s = .next t ↔
      (expectedCode s i ≠ .ok ∧ t = s.raise (expectedCode s i)) ∨
      (expectedCode s i = .ok ∧ ∃ out, commandOutput s i = some out ∧ t = (s.writeKeyRegisters i).succeed out) := by
  by_cases h : expectedCode s i = .ok
  · rw [exec_of_expectedCode_ok h]
    cases hout : commandOutput s i with
    | none => simp [State.endWith, h]
    | some out => simp [State.endWith, h, eq_comm]
  · rw [exec_of_expectedCode_ne_ok h]
    simp [h, eq_comm]

/-! The output exists exactly when the operand bytes can be read -/

/-- The converse of `Memory.chunks_isSome`: chunks cover every byte of their range. -/
theorem Memory.readBytes_isSome_of_chunks {m : Memory} {off count : Nat} (h : (m.chunks off count).isSome) :
    (m.readBytes off (16 * count)).isSome := by
  rw [Memory.readBytes_isSome]
  induction count generalizing off with
  | zero => intro i _ _; omega
  | succ n ih =>
    intro i hlo hhi
    simp only [Memory.chunks] at h
    split at h
    · next x r hx hr =>
      by_cases hi : i < off + 16
      · exact Memory.readBytes_isSome.mp (Memory.memRead_isSome.mp (by rw [hx]; rfl)) i hlo hi
      · exact ih (off := off + 16) (by rw [hr]; rfl) i (by omega) (by omega)
    · cases h

/-- A length register that is a multiple of 16 counts whole chunks (R55). -/
theorem Memory.chunks_isSome_iff {m : Memory} {n : Nat} (h : n % 16 = 0) :
    (m.chunks 0 (n / 16)).isSome ↔ (m.readBytes 0 n).isSome := by
  have hn : 16 * (n / 16) = n := by omega
  constructor
  · intro hc
    have hread := Memory.readBytes_isSome_of_chunks hc
    rwa [hn] at hread
  · intro hread
    rw [← hn] at hread
    exact Memory.chunks_isSome (Memory.readBytes_isSome.mp hread)

/-- The bytes of `A` and of `B` that a command reads hold values. -/
def operandsReadable (s : State) (i : Instr) : Prop :=
  (readsA i = true → (s.a.readBytes 0 s.alen.toNat).isSome) ∧ (readsB i = true → (s.b.readBytes 0 s.blen.toNat).isSome)

theorem isSome_bind_map {α β γ : Type} (x : Option α) (y : Option β) (f : α → β → γ) :
    (x.bind fun u => y.map fun v => f u v).isSome ↔ x.isSome ∧ y.isSome := by
  cases x <;> simp

/-- A command whose checks pass has its output exactly when the operand bytes it reads hold values (R51, R52). -/
theorem commandOutput_isSome (h : expectedCode s i = .ok) : (commandOutput s i).isSome ↔ operandsReadable s i := by
  have hpass := expectedCode_eq_ok.mp h
  cases i with
  | gfmul a b => simp [commandOutput, operandsReadable, readsA, readsB]
  | init => simp [commandOutput, operandsReadable, readsA, readsB]
  | subkey => simp [commandOutput, operandsReadable, readsA, readsB]
  | derive =>
    obtain ⟨hlen, -⟩ := hpass
    simp [commandOutput, operandsReadable, readsA, readsB, hlen, Memory.memRead_isSome]
  | enc =>
    obtain ⟨hlen, -⟩ := hpass
    simp [commandOutput, operandsReadable, readsA, readsB, hlen, Memory.memRead_isSome]
  | dec =>
    obtain ⟨hlen, -⟩ := hpass
    simp [commandOutput, operandsReadable, readsA, readsB, hlen, Memory.memRead_isSome]
  | gamma =>
    obtain ⟨-, h16, hblen⟩ := badGammaLength_eq_false.mp hpass.1
    rw [commandOutput, isSome_bind_map, Memory.chunks_isSome_iff h16, Memory.memRead_isSome]
    simp [operandsReadable, readsA, readsB, hblen]
  | addbe =>
    rw [commandOutput, isSome_bind_map]
    simp [operandsReadable, readsA, readsB]
  | tag =>
    obtain ⟨-, h16⟩ := badTagLength_eq_false.mp hpass.1
    simp [commandOutput, operandsReadable, readsA, readsB, Memory.chunks_isSome_iff h16]
  | _ => simp [commandOutput, operandsReadable, readsA, readsB, show s.alen = 16#32 from hpass, Memory.memRead_isSome]

/-! What a command reads (R51, R20) -/

/-- Two states hold the same in all that the tables say a command reads. -/
structure AgreeOnReads (i : Instr) (s s' : State) : Prop where
  onA : readsA i = true → s'.a = s.a ∧ s'.alen = s.alen
  onB : readsB i = true → s'.b = s.b ∧ s'.blen = s.blen
  onConstants : readsConstants i = true → s'.rc = s.rc ∧ s'.rcv = s.rcv
  onKeys : readsKeys i = true → s'.rk = s.rk ∧ s'.rkv = s.rkv

theorem AgreeOnReads.commandOutput_eq {s' : State} (h : AgreeOnReads i s s') : commandOutput s' i = commandOutput s i := by
  obtain ⟨hA, hB, hC, hK⟩ := h
  cases i <;> simp_all [readsA, readsB, readsConstants, readsKeys, commandOutput]

theorem AgreeOnReads.expectedCode_eq {s' : State} (h : AgreeOnReads i s s') : expectedCode s' i = expectedCode s i := by
  obtain ⟨hA, hB, hC, hK⟩ := h
  cases i <;> simp_all [readsA, readsB, readsConstants, readsKeys, expectedCode]

end Sys2Proof.Machine
end

section
/-! SUPPORT. What every command keeps and reports (spec/20_memory.md R51, R53, R57, spec/60_exceptions.md R212, R214), from the one
equation of a command and from the forms in which it ends. They settle O14, O16, O17, O13, O18, O19, O21 and O22. -/

namespace Sys2Proof.Machine

variable {s t : State} {i : Instr}

/-! The code, and when a command ends -/

theorem err_eq_expectedCode_of_exec (h : exec i s = .next t) : t.err = expectedCode s i := by
  rcases exec_eq_next_iff.mp h with ⟨-, rfl⟩ | ⟨hok, out, -, rfl⟩
  · simp
  · simp [hok]

/-- Settles O16. -/
theorem reportedCodeIsTheTables : Obligations.ReportedCodeIsTheTables := fun _ _ _ => err_eq_expectedCode_of_exec

/-- A command ends unless its checks pass and an operand byte it reads holds no value. -/
theorem exec_ends (h : expectedCode s i = .ok → operandsReadable s i) : ∃ t, exec i s = .next t := by
  by_cases hok : expectedCode s i = .ok
  · obtain ⟨out, hout⟩ := Option.isSome_iff_exists.mp ((commandOutput_isSome hok).mpr (h hok))
    exact ⟨_, exec_eq_next_iff.mpr (.inr ⟨hok, out, hout, rfl⟩)⟩
  · exact ⟨_, exec_eq_next_iff.mpr (.inl ⟨hok, rfl⟩)⟩

/-- Settles O17: without its operand bytes the command has no output, and its checks pass. -/
theorem operandWithoutValueFaults : Obligations.OperandWithoutValueFaults := by
  intro s i hok hnone
  have hunread : ¬operandsReadable s i := by
    rintro ⟨hA, hB⟩
    rcases hnone with ⟨hi, hnone⟩ | ⟨hi, hnone⟩
    · simpa [hnone] using hA hi
    · simpa [hnone] using hB hi
  have hout : commandOutput s i = none := by
    rwa [← commandOutput_isSome hok, Option.not_isSome_iff_eq_none] at hunread
  rw [exec_of_expectedCode_ok hok, hout]
  rfl

/-! The invariant makes operands readable -/

theorem Memory.filledTo_readBytes_isSome {m : Memory} {len off n : Nat} (h : m.filledTo len) (hn : 0 < n) :
    (m.readBytes off n).isSome ↔ off + n ≤ len := by
  simp only [Memory.readBytes_isSome, Memory.filledTo_read_isSome h]
  constructor
  · intro hall
    have hlast := hall (off + n - 1) (by omega) (by omega)
    omega
  · intro hle i _ hi
    omega

/-- A filled buffer can be read up to its length, also when that is 0. -/
theorem Memory.filledTo_readBytes_all {m : Memory} {len : Nat} (h : m.filledTo len) : (m.readBytes 0 len).isSome := by
  simp only [Memory.readBytes_isSome, Memory.filledTo_read_isSome h]
  omega

/-- Settles O14: each buffer is filled exactly to its length register. -/
theorem invariantMakesOperandsReadable : Obligations.InvariantMakesOperandsReadable := fun _ _ _ hinv hn =>
  ⟨Memory.memRead_isSome.trans (Memory.filledTo_readBytes_isSome hinv.aFilled hn),
    Memory.memRead_isSome.trans (Memory.filledTo_readBytes_isSome hinv.bFilled hn),
    Memory.filledTo_readBytes_isSome hinv.oFilled hn⟩

theorem State.Inv.operandsReadable (h : s.Inv) (i : Instr) : operandsReadable s i :=
  ⟨fun _ => Memory.filledTo_readBytes_all h.aFilled, fun _ => Memory.filledTo_readBytes_all h.bFilled⟩

/-- Settles O13: under the invariant no command can find a byte without a value. -/
theorem everyCommandEndsWithItsCode : Obligations.EveryCommandEndsWithItsCode := by
  intro s i hinv
  obtain ⟨t, ht⟩ := exec_ends fun _ => hinv.operandsReadable i
  exact ⟨t, ht, err_eq_expectedCode_of_exec ht⟩

/-! What a command leaves unchanged -/

/-- Settles O18: no form in which a command ends touches these fields. -/
theorem commandsKeepOperands : Obligations.CommandsKeepOperands := by
  intro s t i h
  cases exec_next h with
  | raised e _ => simp
  | result out _ _ => simp
  | constants _ => simp
  | keys _ _ mk => simp

/-- Settles O19: an error report and another command's result keep the key registers; INIT and DERIVE each write their own. -/
theorem keyRegistersHaveOneWriterEach : Obligations.KeyRegistersHaveOneWriterEach := by
  intro s t i h
  cases exec_next h with
  | raised e _ => simp
  | result out _ _ => simp
  | constants hi => simp [hi]
  | keys hi _ mk => simp [hi]

/-- A command leaves what it reads as it was. -/
theorem agreeOnReads_of_exec (h : exec i s = .next t) : AgreeOnReads i s t := by
  obtain ⟨ha, halen, hb, hblen, -, -⟩ := commandsKeepOperands s t i h
  obtain ⟨hinit, hderive⟩ := keyRegistersHaveOneWriterEach s t i h
  refine ⟨fun _ => ⟨ha, halen⟩, fun _ => ⟨hb, hblen⟩, fun hr => ?_, fun hr => ?_⟩
  · by_contra hne
    obtain ⟨rfl, -⟩ := hinit (not_and_or.mp hne)
    cases hr
  · by_contra hne
    obtain ⟨rfl, -⟩ := hderive (not_and_or.mp hne)
    cases hr

/-- INIT and DERIVE write the same values again. -/
theorem State.writeKeyRegisters_succeed_again (s : State) (i : Instr) (out : List Byte) :
    (((s.writeKeyRegisters i).succeed out).writeKeyRegisters i).succeed out = (s.writeKeyRegisters i).succeed out := by
  cases i with
  | derive =>
    cases h : s.a.memRead 0 32 with
    | none => simp [State.writeKeyRegisters, h, State.succeed]
    | some mk => simp [State.writeKeyRegisters, h, State.succeed, State.setRoundKeys]
  | _ => rfl

/-- Settles O21: the second run sees what the first saw, so it raises the same code or writes the same bytes. -/
theorem reissueChangesNothing : Obligations.ReissueChangesNothing := by
  intro s t i h
  have hagree := agreeOnReads_of_exec h
  rw [exec_eq_next_iff, hagree.expectedCode_eq, hagree.commandOutput_eq]
  rcases exec_eq_next_iff.mp h with ⟨hne, rfl⟩ | ⟨hok, out, hout, rfl⟩
  · exact .inl ⟨hne, rfl⟩
  · exact .inr ⟨hok, out, hout, (State.writeKeyRegisters_succeed_again s i out).symm⟩

/-- Settles O22: code and output are functions of what the tables say is read. -/
theorem resultDependsOnReadOperandsOnly : Obligations.ResultDependsOnReadOperandsOnly := by
  intro s s' t i hA hB hC hK h
  have hagree : AgreeOnReads i s s' := ⟨hA, hB, hC, hK⟩
  rcases exec_eq_next_iff.mp h with ⟨hne, rfl⟩ | ⟨hok, out, hout, rfl⟩
  · rw [← hagree.expectedCode_eq] at hne ⊢
    exact ⟨_, exec_eq_next_iff.mpr (.inl ⟨hne, rfl⟩), rfl, rfl, rfl⟩
  · rw [← hagree.expectedCode_eq] at hok
    rw [← hagree.commandOutput_eq] at hout
    exact ⟨_, exec_eq_next_iff.mpr (.inr ⟨hok, out, hout, rfl⟩), rfl, rfl, rfl⟩

end Sys2Proof.Machine
end

section
/-! SUPPORT. The host's actions, reset and STATUS (spec/20_memory.md R58 to R60, spec/70_reset_and_hazards.md R230, spec/10_state.md R26,
R36), and the command ADDBE (spec/45_gamma_and_adder.md R177). A step performs the oldest input in store. They settle O1, O6, O7, O8, O9,
O23, O24, O25, O26 and O39. -/

namespace Sys2Proof

/-- Settles O6: the eight words are the encoder's, and the five are refused at their fields. -/
theorem sampleWordsDecode : Obligations.SampleWordsDecode := by
  unfold Obligations.SampleWordsDecode
  decide

end Sys2Proof

namespace Sys2Proof.Machine

variable {s : State} {rest : List Input}

/-! Commands written to CMD -/

theorem hostIssue_of_decode {w : Word} {i : Instr} (h : decode w = .ok i) (s : State) : hostIssue w s = exec i s := by
  simp [hostIssue, h]

/-- Settles O1: the oldest input is taken, and the decoder's answer is run. -/
theorem stepRunsDecodedCommand : Obligations.StepRunsDecodedCommand := by
  intro s w rest h
  have hstep : step s = hostIssue w (s.setInputs rest) := step_cons s h
  exact ⟨hstep, fun i hd _ => hstep.trans (hostIssue_of_decode hd _)⟩

/-- Settles O39: the word is ADDBE's row, and ADDBE has no check to fail. -/
theorem addbeCommand : Obligations.AddbeCommand := by
  refine ⟨decode_pattern .addbe, fun s x y hx hy => ?_⟩
  have hout : commandOutput s .addbe = some (addBe x y) := by simp [commandOutput, hx, hy]
  exact exec_eq_next_iff.mpr (.inr ⟨rfl, _, hout, rfl⟩)

/-! The other inputs -/

/-- Settles O25: with an empty store the model idles (log 2). -/
theorem idleStepChangesNothing : Obligations.IdleStepChangesNothing := by
  intro s h
  simp [step, takeInput, h]

theorem hostLoadA_of_le {bytes : List Byte} (h : bytes.length ≤ Config.bufMax) (s : State) :
    hostLoadA bytes s = .next (s.setA bytes) := if_pos h

theorem hostLoadB_of_le {bytes : List Byte} (h : bytes.length ≤ Config.bufMax) (s : State) :
    hostLoadB bytes s = .next (s.setB bytes) := if_pos h

theorem hostLoadA_of_gt {bytes : List Byte} (h : Config.bufMax < bytes.length) (s : State) :
    hostLoadA bytes s = .refused (.loadTooLong bytes.length) := if_neg (Nat.not_le.mpr h)

theorem hostLoadB_of_gt {bytes : List Byte} (h : Config.bufMax < bytes.length) (s : State) :
    hostLoadB bytes s = .refused (.loadTooLong bytes.length) := if_neg (Nat.not_le.mpr h)

/-- Settles O23: a load is the step's input, and BUF_MAX decides what becomes of it. -/
theorem loadReplacesOneBuffer : Obligations.LoadReplacesOneBuffer := by
  intro s bytes rest
  refine ⟨fun h hle => (step_cons s h).trans (hostLoadA_of_le hle _), fun h hle => (step_cons s h).trans (hostLoadB_of_le hle _), ?_⟩
  rintro (h | h) hgt
  · exact (step_cons s h).trans (hostLoadA_of_gt hgt _)
  · exact (step_cons s h).trans (hostLoadB_of_gt hgt _)

theorem hostReadO_of_readBytes {bytes : List Byte} (h : s.o.readBytes 0 s.olen.toNat = some bytes) :
    hostReadO s = .next (s.reply (.output bytes)) := by
  simp [hostReadO, h]

theorem hostReadO_of_none (h : s.o.readBytes 0 s.olen.toNat = none) : hostReadO s = .fault .byteHoldsNoValue := by
  simp [hostReadO, h]

/-- Settles O24: a read is the step's input; it appends its reply and leaves the core. -/
theorem hostReadsReturnAndChangeNothing : Obligations.HostReadsReturnAndChangeNothing := fun s rest =>
  ⟨fun _ h hread => (step_cons s h).trans (hostReadO_of_readBytes (s := s.setInputs rest) hread),
    fun h hnone => (step_cons s h).trans (hostReadO_of_none (s := s.setInputs rest) hnone),
    fun h => step_cons s h⟩

/-! Reset -/

/-- Settles O7: every field is written out in the reset state, and its buffers list no byte. -/
theorem resetClearsFlagsLengthsAndBuffers : Obligations.ResetClearsFlagsLengthsAndBuffers :=
  ⟨rfl, rfl, rfl, rfl, rfl, rfl, rfl, fun off => ⟨Memory.read_nil off, Memory.read_nil off, Memory.read_nil off⟩⟩

/-- Settles O8: reset is the step's input, and it keeps the two fields of the outside. -/
theorem resetEventRestoresResetState : Obligations.ResetEventRestoresResetState := fun s _ h => step_cons s h

/-- Settles O9: empty buffers of length 0, both flags clear and no error. -/
theorem resetMeetsInvariant : Obligations.ResetMeetsInvariant where
  aFilled := rfl
  aFits := Nat.zero_le _
  bFilled := rfl
  bFits := Nat.zero_le _
  oFilled := rfl
  oFits := Nat.zero_le _
  constantsValid h := Bool.noConfusion h
  keysValid h := Bool.noConfusion h
  keysNeedConstants h := Bool.noConfusion h
  noResultOnError _ := rfl

/-! STATUS -/

theorem ErrCode.code_injective {e f : ErrCode} : e.code = f.code ↔ e = f := by
  cases e <;> cases f <;> decide

theorem ErrCode.code_lt (e : ErrCode) : e.code < 6#3 := by
  cases e <;> decide

/-- Settles O26: the fields of R26's concatenation, and R200's six numbers, which are different and below 6. -/
theorem statusWordFields : Obligations.StatusWordFields := by
  intro s
  have h8 : s.status.getLsbD 8 = s.rcv := by simp only [State.status, BitVec.getLsbD_append]; simp
  have h9 : s.status.getLsbD 9 = s.rkv := by simp only [State.status, BitVec.getLsbD_append]; simp
  have h3 : s.status.extractLsb' 3 5 = 0#5 :=
    (BitVec.extractLsb'_append_eq_of_le (by decide)).trans BitVec.extractLsb'_append_eq_right
  have h10 : s.status.extractLsb' 10 22 = 0#22 := by
    refine (BitVec.extractLsb'_append_eq_of_le (by decide)).trans ?_
    refine (BitVec.extractLsb'_append_eq_of_le (by decide)).trans ?_
    refine (BitVec.extractLsb'_append_eq_of_le (by decide)).trans ?_
    refine (BitVec.extractLsb'_append_eq_of_le (by decide)).trans ?_
    exact BitVec.extractLsb'_eq_self
  have h6 : s.err.code ≠ 6#3 := fun h => absurd (h ▸ s.err.code_lt) (by decide)
  have h7 : s.err.code ≠ 7#3 := fun h => absurd (h ▸ s.err.code_lt) (by decide)
  exact ⟨BitVec.extractLsb'_append_eq_right, h3, h8, h9, h10, h6, h7,
    ErrCode.code_injective (f := .ok), ErrCode.code_injective (f := .invalidKeyLength),
    ErrCode.code_injective (f := .invalidBlockLength), ErrCode.code_injective (f := .invalidInputLength),
    ErrCode.code_injective (f := .notReady), ErrCode.code_injective (f := .illegalCommand)⟩

end Sys2Proof.Machine
end

section
/-! SUPPORT. What every step keeps (spec/20_memory.md R50, spec/10_state.md R21, R22, R25, R28, spec/60_exceptions.md R207, R214): each
named update of the state keeps the invariant, and a step is one of them, or two. They settle O10, O11, O12 and O20. -/

namespace Sys2Proof.Machine

variable {s t : State} {i : Instr}

/-! The size of a command's output (R28) -/

/-- Every output fits in 512 bytes, or in one byte more than the longer operand. -/
theorem commandOutput_length_le {out : List Byte} (h : commandOutput s i = some out) :
    out.length ≤ max 512 (max s.alen.toNat s.blen.toNat + 1) := by
  cases i with
  | gfmul a b => cases h; simp
  | init => cases h; simp
  | subkey => cases h; simp
  | gamma =>
    simp only [commandOutput, Option.bind_eq_some_iff, Option.map_eq_some_iff] at h
    obtain ⟨data, hdata, sync, -, rfl⟩ := h
    rw [blockBytes_length, gamma_length, Memory.chunks_length hdata]
    omega
  | addbe =>
    simp only [commandOutput, Option.bind_eq_some_iff, Option.map_eq_some_iff] at h
    obtain ⟨x, hx, y, hy, rfl⟩ := h
    have hle := addBe_length_le x y
    rw [Memory.readBytes_length hx, Memory.readBytes_length hy] at hle
    omega
  | _ =>
    obtain ⟨x, -, rfl⟩ := Option.map_eq_some_iff.mp h
    simp

theorem State.Inv.commandOutput_fits (hinv : s.Inv) {out : List Byte} (h : commandOutput s i = some out) :
    out.length ≤ Config.bufMax + 1 := by
  have hout := commandOutput_length_le h
  have hA := hinv.aFits
  have hB := hinv.bFits
  have hmax := Config.bufMax_ge
  omega

/-! Each update keeps the invariant -/

/-- The length register of a freshly filled buffer counts its bytes, if they fit. -/
theorem toNat_length_of_fits {l : List Byte} (h : l.length ≤ Config.bufMax + 1) :
    (BitVec.ofNat 32 l.length).toNat = l.length := by
  have hmax := Config.bufMax_lt
  rw [BitVec.toNat_ofNat, Nat.mod_eq_of_lt (by omega)]

theorem Memory.holding_filledTo_of_fits {l : List Byte} (h : l.length ≤ Config.bufMax + 1) :
    (Memory.holding l).filledTo (BitVec.ofNat 32 l.length).toNat := by
  rw [toNat_length_of_fits h]
  exact Memory.holding_filledTo l

/-- The invariant is about the core alone. -/
theorem State.Inv.setInputs (h : s.Inv) (l : List Input) : (s.setInputs l).Inv := { h with }

theorem State.Inv.reply (h : s.Inv) (r : HostReply) : (s.reply r).Inv := { h with }

theorem State.inv_resetCore (s : State) : s.resetCore.Inv := { resetMeetsInvariant with }

theorem State.Inv.setA (h : s.Inv) {bytes : List Byte} (hfits : bytes.length ≤ Config.bufMax) : (s.setA bytes).Inv :=
  { h with
    aFilled := Memory.holding_filledTo_of_fits (Nat.le_add_right_of_le hfits)
    aFits := (toNat_length_of_fits (Nat.le_add_right_of_le hfits)).trans_le hfits }

theorem State.Inv.setB (h : s.Inv) {bytes : List Byte} (hfits : bytes.length ≤ Config.bufMax) : (s.setB bytes).Inv :=
  { h with
    bFilled := Memory.holding_filledTo_of_fits (Nat.le_add_right_of_le hfits)
    bFits := (toNat_length_of_fits (Nat.le_add_right_of_le hfits)).trans_le hfits }

theorem State.Inv.raise (h : s.Inv) (e : ErrCode) : (s.raise e).Inv :=
  { h with oFilled := rfl, oFits := Nat.zero_le _, noResultOnError := fun _ => rfl }

theorem State.Inv.succeed (h : s.Inv) {out : List Byte} (hfits : out.length ≤ Config.bufMax + 1) : (s.succeed out).Inv :=
  { h with
    oFilled := Memory.holding_filledTo_of_fits hfits
    oFits := (toNat_length_of_fits hfits).trans_le hfits
    noResultOnError := fun hne => absurd rfl hne }

theorem State.Inv.setRoundConstants (h : s.Inv) : (s.setRoundConstants rcGen).Inv :=
  { h with constantsValid := fun _ => rfl, keysNeedConstants := fun _ => rfl }

theorem State.Inv.setRoundKeys (h : s.Inv) (hrcv : s.rcv = true) (key : MasterKey) :
    (s.setRoundKeys (keySchedule key s.rc)).Inv :=
  { h with keysValid := fun _ => ⟨key, by rw [← h.constantsValid hrcv]; rfl⟩, keysNeedConstants := fun _ => hrcv }

theorem State.Inv.writeKeyRegisters (h : s.Inv) (hok : expectedCode s i = .ok) : (s.writeKeyRegisters i).Inv := by
  cases i with
  | init => exact h.setRoundConstants
  | derive =>
    obtain ⟨-, hrcv⟩ := expectedCode_eq_ok.mp hok
    cases hkey : s.a.memRead 0 32 with
    | none => simpa [State.writeKeyRegisters, hkey] using h
    | some key => simpa [State.writeKeyRegisters, hkey] using h.setRoundKeys hrcv key
  | _ => exact h

theorem State.Inv.exec (h : s.Inv) (hexec : exec i s = .next t) : t.Inv := by
  rcases exec_eq_next_iff.mp hexec with ⟨-, rfl⟩ | ⟨hok, out, hout, rfl⟩
  · exact h.raise _
  · exact (h.writeKeyRegisters hok).succeed (h.commandOutput_fits hout)

/-- Settles O10: by what a step can do, each of it an update that keeps the invariant. -/
theorem stepKeepsInvariant : Obligations.StepKeepsInvariant := by
  intro s t h hstep
  rcases step_next hstep with ⟨-, rfl⟩ | ⟨x, rest, -, hx⟩
  · exact h
  · have hrest := h.setInputs rest
    rcases hx with ⟨bytes, -, hfits, rfl⟩ | ⟨bytes, -, hfits, rfl⟩ | ⟨w, i, -, -, hexec⟩ | ⟨w, e, -, -, rfl⟩ |
      ⟨bytes, -, -, rfl⟩ | ⟨-, rfl⟩ | ⟨-, rfl⟩
    · exact hrest.setA hfits
    · exact hrest.setB hfits
    · exact hrest.exec hexec
    · exact hrest.raise _
    · exact hrest.reply _
    · exact hrest.reply _
    · exact State.inv_resetCore _

/-! The canonical form, in every state -/

theorem memoriesCanonical_of_exec (h : s.memoriesCanonical) (hexec : exec i s = .next t) : t.memoriesCanonical := by
  obtain ⟨hA, hB, -⟩ := h
  obtain ⟨ha, -, hb, -⟩ := commandsKeepOperands s t i hexec
  refine ⟨ha ▸ hA, hb ▸ hB, ?_⟩
  rcases exec_eq_next_iff.mp hexec with ⟨-, rfl⟩ | ⟨-, out, -, rfl⟩
  · exact List.Pairwise.nil
  · exact Memory.holding_wf out

/-- Settles O11: what a step writes to a buffer is the empty buffer or a freshly filled one. -/
theorem stepKeepsCanonicalBuffers : Obligations.StepKeepsCanonicalBuffers := by
  intro s t h hstep
  rcases step_next hstep with ⟨-, rfl⟩ | ⟨x, rest, -, hx⟩
  · exact h
  · obtain ⟨hA, hB, hO⟩ := h
    rcases hx with ⟨bytes, -, -, rfl⟩ | ⟨bytes, -, -, rfl⟩ | ⟨w, i, -, -, hexec⟩ | ⟨w, e, -, -, rfl⟩ |
      ⟨bytes, -, -, rfl⟩ | ⟨-, rfl⟩ | ⟨-, rfl⟩
    · exact ⟨Memory.holding_wf _, hB, hO⟩
    · exact ⟨hA, Memory.holding_wf _, hO⟩
    · exact memoriesCanonical_of_exec (s := s.setInputs rest) ⟨hA, hB, hO⟩ hexec
    · exact ⟨hA, hB, List.Pairwise.nil⟩
    · exact ⟨hA, hB, hO⟩
    · exact ⟨hA, hB, hO⟩
    · exact ⟨List.Pairwise.nil, List.Pairwise.nil, List.Pairwise.nil⟩

/-! The valid flags -/

/-- No command clears a valid flag (R25). -/
theorem validFlags_of_exec (h : exec i s = .next t) :
    (s.rcv = true → t.rcv = true) ∧ (s.rkv = true → t.rkv = true) := by
  cases exec_next h with
  | raised e _ => exact ⟨id, id⟩
  | result out _ _ => exact ⟨id, id⟩
  | constants _ => exact ⟨fun _ => rfl, id⟩
  | keys _ _ mk => exact ⟨id, fun _ => rfl⟩

/-- A step that is no reset keeps each valid flag that is set. -/
theorem validFlags_of_step (hstep : step s = .next t) (hreset : s.inputs.head? ≠ some .reset) :
    (s.rcv = true → t.rcv = true) ∧ (s.rkv = true → t.rkv = true) := by
  rcases step_next hstep with ⟨-, rfl⟩ | ⟨x, rest, hin, hx⟩
  · exact ⟨id, id⟩
  · rcases hx with ⟨bytes, -, -, rfl⟩ | ⟨bytes, -, -, rfl⟩ | ⟨w, i, -, -, hexec⟩ | ⟨w, e, -, -, rfl⟩ |
      ⟨bytes, -, -, rfl⟩ | ⟨-, rfl⟩ | ⟨rfl, -⟩
    · exact ⟨id, id⟩
    · exact ⟨id, id⟩
    · exact validFlags_of_exec (s := s.setInputs rest) hexec
    · exact ⟨id, id⟩
    · exact ⟨id, id⟩
    · exact ⟨id, id⟩
    · simp [hin] at hreset

/-- Settles O20: a step that is no reset keeps the flags. -/
theorem onlyResetClearsValidFlags : Obligations.OnlyResetClearsValidFlags := by
  intro s t hstep hcleared
  by_contra hreset
  obtain ⟨hrcv, hrkv⟩ := validFlags_of_step hstep hreset
  rcases hcleared with ⟨hset, hclear⟩ | ⟨hset, hclear⟩
  · simp [hrcv hset] at hclear
  · simp [hrkv hset] at hclear

/-! The core is never stuck -/

theorem hostIssue_ends (h : s.Inv) (w : Word) : ∃ t, hostIssue w s = .next t := by
  cases hd : decode w with
  | ok i =>
    rw [hostIssue_of_decode hd]
    exact exec_ends fun _ => h.operandsReadable i
  | error e => exact ⟨_, hostIssue_of_decode_ne_ok s (by simp [hd])⟩

theorem hostReadO_ends (h : s.Inv) : ∃ t, hostReadO s = .next t := by
  obtain ⟨bytes, hread⟩ := Option.isSome_iff_exists.mp (Memory.filledTo_readBytes_all h.oFilled)
  exact ⟨_, hostReadO_of_readBytes hread⟩

/-- Settles O12: by the oldest input; of them only a load can be refused. -/
theorem stepGoesOnUnlessLoadTooLong : Obligations.StepGoesOnUnlessLoadTooLong := by
  intro s h
  cases hin : s.inputs with
  | nil => exact .inl ⟨s, idleStepChangesNothing s hin⟩
  | cons x rest =>
    have hrest := h.setInputs rest
    rw [step_cons s hin]
    cases x with
    | reset => exact .inl ⟨_, rfl⟩
    | host act =>
      cases act with
      | loadA bytes =>
        rcases Nat.lt_or_ge Config.bufMax bytes.length with hlong | hfits
        · exact .inr ⟨bytes, rest, hlong, .inl rfl, hostLoadA_of_gt hlong _⟩
        · exact .inl ⟨_, hostLoadA_of_le hfits _⟩
      | loadB bytes =>
        rcases Nat.lt_or_ge Config.bufMax bytes.length with hlong | hfits
        · exact .inr ⟨bytes, rest, hlong, .inr rfl, hostLoadB_of_gt hlong _⟩
        · exact .inl ⟨_, hostLoadB_of_le hfits _⟩
      | issue w => exact .inl (hostIssue_ends hrest w)
      | readO => exact .inl (hostReadO_ends hrest)
      | readStatus => exact .inl ⟨_, rfl⟩

end Sys2Proof.Machine
end

section
/-! SUPPORT. The field product (spec/40_gf_multiplier.md R100 to R104). A byte is read as a polynomial over GF(2); one round of R101's
loop multiplies it by X modulo the field's polynomial, so the loop gives the product's remainder (R104). The ring laws are then those
of the quotient ring, into which the bytes embed. They settle O42, O43, O44 and O45. -/

namespace Sys2Proof.Machine

open Polynomial

/-- The byte as a polynomial over GF(2): bit `i` is the coefficient of `X^i` (R100). -/
noncomputable def bytePoly (v : Byte) : (ZMod 2)[X] :=
  ∑ i ∈ Finset.range 8, if v.getLsbD i = true then X ^ i else 0

/-- The polynomial of R100. -/
noncomputable def fieldPoly : (ZMod 2)[X] :=
  X ^ 8 + X ^ 7 + X ^ 6 + X + 1

theorem fieldPoly_natDegree : fieldPoly.natDegree = 8 := by
  unfold fieldPoly
  compute_degree!

theorem fieldPoly_monic : fieldPoly.Monic := by
  unfold fieldPoly
  monicity!

theorem bytePoly_coeff (v : Byte) (i : Nat) : (bytePoly v).coeff i = if v.getLsbD i = true then 1 else 0 := by
  by_cases hi : i < 8
  · rw [bytePoly, finsetSum_coeff, Finset.sum_eq_single_of_mem i (Finset.mem_range.mpr hi)]
    · split <;> simp
    · intro j _ hj
      split <;> simp [coeff_X_pow, hj.symm]
  · have hv : v.getLsbD i = false := BitVec.getLsbD_of_ge v i (by omega)
    rw [bytePoly, finsetSum_coeff, Finset.sum_eq_zero]
    · simp [hv]
    · intro j hj
      have hij : i ≠ j := by have := Finset.mem_range.mp hj; omega
      split <;> simp [coeff_X_pow, hij]

theorem bytePoly_injective : Function.Injective bytePoly := by
  intro v w h
  refine BitVec.eq_of_getLsbD_eq fun i _ => ?_
  have hi := congrArg (fun p => p.coeff i) h
  simp only [bytePoly_coeff] at hi
  cases hv : v.getLsbD i <;> cases hw : w.getLsbD i <;> simp [hv, hw] at hi ⊢

/-- A byte's polynomial has a degree below 8, so it is its own remainder. -/
theorem bytePoly_modByMonic (v : Byte) : (bytePoly v).modByMonic fieldPoly = bytePoly v := by
  rw [modByMonic_eq_self_iff fieldPoly_monic, degree_eq_natDegree fieldPoly_monic.ne_zero, fieldPoly_natDegree,
    degree_lt_iff_coeff_zero]
  intro i hi
  rw [bytePoly_coeff, BitVec.getLsbD_of_ge v i hi]
  rfl

@[simp] theorem bytePoly_zero : bytePoly 0x00#8 = 0 := by
  ext i
  simp [bytePoly_coeff]

@[simp] theorem bytePoly_one : bytePoly 0x01#8 = 1 := by
  ext i
  simp [bytePoly_coeff, coeff_one]

theorem bytePoly_xor (v w : Byte) : bytePoly (v ^^^ w) = bytePoly v + bytePoly w := by
  ext i
  simp only [coeff_add, bytePoly_coeff, BitVec.getLsbD_xor]
  cases v.getLsbD i <;> cases w.getLsbD i <;> decide

/-- One round's doubling of `a` (R101 step 2). -/
def timesX (a : Byte) : Byte := if a &&& 0x80#8 = 0#8 then a <<< 1 else (a <<< 1) ^^^ 0xC3#8

theorem and_twoPow_eq_zero_iff {v : Byte} {i : Nat} (hi : i < 8) : v &&& BitVec.twoPow 8 i = 0#8 ↔ v.getLsbD i = false := by
  have hne : BitVec.twoPow 8 i ≠ 0#8 := by interval_cases i <;> decide
  rw [BitVec.and_twoPow]
  cases v.getLsbD i <;> simp [hne]

theorem gfLoop_succ (k : Nat) (acc a b : Byte) :
    gfLoop (k + 1) acc a b = gfLoop k (if b.getLsbD 0 = true then acc ^^^ a else acc) (timesX a) (b >>> 1) := by
  have hbit : b &&& 0x01#8 = 0#8 ↔ b.getLsbD 0 = false := and_twoPow_eq_zero_iff (i := 0) (by decide)
  rw [gfLoop, ← timesX]
  simp only [hbit]
  cases b.getLsbD 0 <;> rfl

theorem bytePoly_shiftLeft_one (a : Byte) :
    bytePoly (a <<< 1) = X * bytePoly a + if a.getLsbD 7 = true then X ^ 8 else 0 := by
  ext i
  cases i with
  | zero => cases h : a.getLsbD 7 <;> simp [bytePoly_coeff, coeff_X_pow]
  | succ j =>
    have htop : (if a.getLsbD 7 = true then X ^ 8 else 0 : (ZMod 2)[X]).coeff (j + 1) =
        if j = 7 ∧ a.getLsbD 7 = true then 1 else 0 := by
      by_cases h : a.getLsbD 7 = true <;> simp only [h] <;> simp [coeff_X_pow]
    rw [coeff_add, coeff_X_mul, bytePoly_coeff, bytePoly_coeff, BitVec.getLsbD_shiftLeft, htop]
    rcases Nat.lt_trichotomy j 7 with hj | rfl | hj
    · simp [hj.ne, Nat.succ_lt_succ hj]
    · cases a.getLsbD 7 <;> decide
    · simp [hj.ne', BitVec.getLsbD_of_ge a j hj]

theorem bytePoly_reduction : bytePoly 0xC3#8 + X ^ 8 = fieldPoly := by
  simp [bytePoly, fieldPoly, Finset.sum_range_succ]
  ring

theorem timesX_eq (a : Byte) : timesX a = if a.getLsbD 7 = true then (a <<< 1) ^^^ 0xC3#8 else a <<< 1 := by
  have hbit : a &&& 0x80#8 = 0#8 ↔ a.getLsbD 7 = false := and_twoPow_eq_zero_iff (i := 7) (by decide)
  rw [timesX]
  simp only [hbit]
  cases a.getLsbD 7 <;> rfl

theorem bytePoly_timesX (a : Byte) :
    bytePoly (timesX a) = X * bytePoly a + if a.getLsbD 7 = true then fieldPoly else 0 := by
  rw [timesX_eq]
  split
  · next h => rw [bytePoly_xor, bytePoly_shiftLeft_one, if_pos h, ← bytePoly_reduction]; ring
  · next h => rw [bytePoly_shiftLeft_one, if_neg h]

/-! R101's loop in the quotient ring -/

/-- The byte's class modulo the field's polynomial. -/
noncomputable def fieldClass (v : Byte) : AdjoinRoot fieldPoly := AdjoinRoot.mk fieldPoly (bytePoly v)

@[simp] theorem fieldClass_zero : fieldClass 0x00#8 = 0 := by simp [fieldClass]

@[simp] theorem fieldClass_one : fieldClass 0x01#8 = 1 := by simp [fieldClass]

theorem fieldClass_xor (v w : Byte) : fieldClass (v ^^^ w) = fieldClass v + fieldClass w := by
  simp [fieldClass, bytePoly_xor]

theorem fieldClass_timesX (a : Byte) : fieldClass (timesX a) = AdjoinRoot.root fieldPoly * fieldClass a := by
  rw [fieldClass, bytePoly_timesX]
  split <;> simp [fieldClass]

/-- A byte is its lowest bit and X times the rest. -/
theorem bytePoly_shiftRight_one (b : Byte) :
    bytePoly b = (if b.getLsbD 0 = true then (1 : (ZMod 2)[X]) else 0) + X * bytePoly (b >>> 1) := by
  ext i
  cases i with
  | zero =>
    rw [coeff_add, mul_coeff_zero, coeff_X_zero, zero_mul, add_zero, bytePoly_coeff]
    split <;> simp
  | succ j =>
    have hlow : (if b.getLsbD 0 = true then 1 else 0 : (ZMod 2)[X]).coeff (j + 1) = 0 := by
      split <;> simp [coeff_one]
    rw [coeff_add, hlow, zero_add, coeff_X_mul, bytePoly_coeff, bytePoly_coeff, BitVec.getLsbD_ushiftRight, Nat.add_comm]

theorem fieldClass_shiftRight_one (b : Byte) :
    fieldClass b = (if b.getLsbD 0 = true then 1 else 0) + AdjoinRoot.root fieldPoly * fieldClass (b >>> 1) := by
  have h := congrArg (AdjoinRoot.mk fieldPoly) (bytePoly_shiftRight_one b)
  rw [map_add, map_mul, AdjoinRoot.mk_X] at h
  rw [fieldClass, h]
  split <;> simp [fieldClass]

/-- The loop adds the product to the accumulator, when its rounds use up the bits of `b`. -/
theorem fieldClass_gfLoop (k : Nat) (acc a b : Byte) (hb : b.toNat < 2 ^ k) :
    fieldClass (gfLoop k acc a b) = fieldClass acc + fieldClass a * fieldClass b := by
  induction k generalizing acc a b with
  | zero =>
    have h0 : b = 0x00#8 := BitVec.eq_of_toNat_eq (by simpa using hb)
    simp [gfLoop, h0]
  | succ k ih =>
    have hb' : (b >>> 1).toNat < 2 ^ k := by
      rw [BitVec.toNat_ushiftRight, Nat.shiftRight_eq_div_pow]
      omega
    rw [gfLoop_succ, ih _ _ _ hb', fieldClass_timesX, fieldClass_shiftRight_one b]
    split
    · rw [fieldClass_xor]; ring
    · ring

theorem fieldClass_gfMul (a b : Byte) : fieldClass (gfMul a b) = fieldClass a * fieldClass b := by
  rw [gfMul, fieldClass_gfLoop 8 _ _ _ b.isLt, fieldClass_zero, zero_add]

theorem bytePoly_gfMul (a b : Byte) : bytePoly (gfMul a b) = (bytePoly a * bytePoly b).modByMonic fieldPoly := by
  have hclass : AdjoinRoot.mk fieldPoly (bytePoly (gfMul a b)) = AdjoinRoot.mk fieldPoly (bytePoly a * bytePoly b) := by
    rw [map_mul]
    exact fieldClass_gfMul a b
  rw [← modByMonic_eq_of_dvd_sub fieldPoly_monic (AdjoinRoot.mk_eq_mk.mp hclass), bytePoly_modByMonic]

theorem fieldClass_injective : Function.Injective fieldClass := by
  intro v w h
  have hmod := modByMonic_eq_of_dvd_sub fieldPoly_monic (AdjoinRoot.mk_eq_mk.mp h)
  rw [bytePoly_modByMonic, bytePoly_modByMonic] at hmod
  exact bytePoly_injective hmod

/-! Laws -/

theorem gfMul_comm (a b : Byte) : gfMul a b = gfMul b a :=
  fieldClass_injective (by simp only [fieldClass_gfMul, mul_comm])

theorem gfMul_assoc (a b c : Byte) : gfMul (gfMul a b) c = gfMul a (gfMul b c) :=
  fieldClass_injective (by simp only [fieldClass_gfMul, mul_assoc])

theorem gfMul_xor (a b c : Byte) : gfMul a (b ^^^ c) = gfMul a b ^^^ gfMul a c :=
  fieldClass_injective (by simp only [fieldClass_gfMul, fieldClass_xor, mul_add])

@[simp] theorem gfMul_zero (a : Byte) : gfMul a 0x00#8 = 0x00#8 := fieldClass_injective (by simp [fieldClass_gfMul])

@[simp] theorem zero_gfMul (a : Byte) : gfMul 0x00#8 a = 0x00#8 := fieldClass_injective (by simp [fieldClass_gfMul])

@[simp] theorem gfMul_one (a : Byte) : gfMul a 0x01#8 = a := fieldClass_injective (by simp [fieldClass_gfMul])

@[simp] theorem one_gfMul (a : Byte) : gfMul 0x01#8 a = a := fieldClass_injective (by simp [fieldClass_gfMul])

theorem xor_gfMul (a b c : Byte) : gfMul (a ^^^ b) c = gfMul a c ^^^ gfMul b c := by
  rw [gfMul_comm, gfMul_xor, gfMul_comm c a, gfMul_comm c b]

/-- Settles O42 from the laws above. -/
theorem fieldProductRingLaws : Obligations.FieldProductRingLaws := fun a b x =>
  ⟨gfMul_comm a b, gfMul_zero a, zero_gfMul b, gfMul_one a, one_gfMul a, gfMul_xor a b x⟩

/-- Settles O43: the classes modulo the field's polynomial associate. -/
theorem fieldProductAssociates : Obligations.FieldProductAssociates := gfMul_assoc

/-- Settles O45: the two polynomials of the statement are `bytePoly` and `fieldPoly`. -/
theorem fieldProductIsPolynomialRemainder : Obligations.FieldProductIsPolynomialRemainder := bytePoly_gfMul

/-! Inverses: X generates the non-zero elements -/

theorem fieldClass_iterate_timesX (n : Nat) : fieldClass (timesX^[n] 0x01#8) = AdjoinRoot.root fieldPoly ^ n := by
  induction n with
  | zero => exact fieldClass_one
  | succ n ih => rw [Function.iterate_succ_apply', fieldClass_timesX, ih, pow_succ']

theorem root_pow_eq_one_iff (n : Nat) : AdjoinRoot.root fieldPoly ^ n = 1 ↔ timesX^[n] 0x01#8 = 0x01#8 := by
  rw [← fieldClass_iterate_timesX, ← fieldClass_one, fieldClass_injective.eq_iff]

/-- The order is 255 = 3 * 5 * 17 and no proper divisor of it, by running the doublings. -/
theorem orderOf_root : orderOf (AdjoinRoot.root fieldPoly) = 255 := by
  refine orderOf_eq_of_pow_and_pow_div_prime (by decide) ?_ fun p hp hdvd => ?_
  · rw [root_pow_eq_one_iff]
    decide +kernel
  · have hmem : p ∈ Nat.primeFactors 255 := Nat.mem_primeFactors.mpr ⟨hp, hdvd, by decide⟩
    have hfactors : Nat.primeFactors 255 = {3, 5, 17} := by decide +kernel
    rw [hfactors, Finset.mem_insert, Finset.mem_insert, Finset.mem_singleton] at hmem
    rw [Ne, root_pow_eq_one_iff]
    rcases hmem with rfl | rfl | rfl <;> decide +kernel

theorem root_pow_255 : AdjoinRoot.root fieldPoly ^ 255 = 1 := orderOf_root ▸ pow_orderOf_eq_one _

theorem iterate_timesX_injOn : Set.InjOn (fun n => timesX^[n] 0x01#8) (Finset.range 255) := by
  intro m hm n hn h
  have hpow : AdjoinRoot.root fieldPoly ^ m = AdjoinRoot.root fieldPoly ^ n := by
    rw [← fieldClass_iterate_timesX, ← fieldClass_iterate_timesX]
    exact congrArg fieldClass h
  rw [Finset.coe_range, ← orderOf_root] at hm hn
  exact pow_injOn_Iio_orderOf hm hn hpow

theorem iterate_timesX_ne_zero (n : Nat) : timesX^[n] 0x01#8 ≠ 0x00#8 := by
  intro h
  have hunit : IsUnit (AdjoinRoot.root fieldPoly) := IsUnit.of_pow_eq_one root_pow_255 (by decide)
  have hzero : AdjoinRoot.root fieldPoly ^ n = 0 := by rw [← fieldClass_iterate_timesX, h, fieldClass_zero]
  have hone : fieldClass 0x01#8 = fieldClass 0x00#8 := by
    rw [fieldClass_one, fieldClass_zero]
    exact (hunit.pow n).mul_left_cancel (by rw [hzero, zero_mul, zero_mul])
  exact absurd (fieldClass_injective hone) (by decide)

/-- The 255 powers of X are different and not zero, and there are no more than 255 such bytes. -/
theorem exists_iterate_timesX_eq {a : Byte} (ha : a ≠ 0x00#8) : ∃ n < 255, timesX^[n] 0x01#8 = a := by
  have hmaps : Set.MapsTo (fun n => (timesX^[n] 0x01#8).toNat) (Finset.range 255) (Finset.Icc 1 255) := by
    intro n _
    have hlt := (timesX^[n] 0x01#8).isLt
    have hne : (timesX^[n] 0x01#8).toNat ≠ 0 := fun h => iterate_timesX_ne_zero n (BitVec.eq_of_toNat_eq h)
    simp only [Finset.coe_Icc, Set.mem_Icc]
    omega
  have hinj : Set.InjOn (fun n => (timesX^[n] 0x01#8).toNat) (Finset.range 255) := fun m hm n hn h =>
    iterate_timesX_injOn hm hn (BitVec.eq_of_toNat_eq h)
  have ha' : a.toNat ∈ Finset.Icc 1 255 := by
    have hlt := a.isLt
    have hne : a.toNat ≠ 0 := fun h => ha (BitVec.eq_of_toNat_eq h)
    rw [Finset.mem_Icc]
    omega
  obtain ⟨n, hn, hna⟩ := Finset.surjOn_of_injOn_of_card_le _ hmaps hinj (by simp) ha'
  exact ⟨n, Finset.mem_range.mp hn, BitVec.eq_of_toNat_eq hna⟩

theorem exists_gfMul_eq_one {a : Byte} (ha : a ≠ 0x00#8) : ∃ b, gfMul a b = 0x01#8 := by
  obtain ⟨n, hn, rfl⟩ := exists_iterate_timesX_eq ha
  refine ⟨timesX^[255 - n] 0x01#8, fieldClass_injective ?_⟩
  rw [fieldClass_gfMul, fieldClass_iterate_timesX, fieldClass_iterate_timesX, ← pow_add, Nat.add_sub_cancel' hn.le,
    root_pow_255, fieldClass_one]

/-- An element with an inverse can be cancelled. -/
theorem gfMul_left_cancel {a b c : Byte} (ha : a ≠ 0x00#8) (h : gfMul a b = gfMul a c) : b = c := by
  obtain ⟨a', ha'⟩ := exists_gfMul_eq_one ha
  rw [← one_gfMul b, ← ha', gfMul_comm a, gfMul_assoc, h, ← gfMul_assoc, gfMul_comm a', ha', one_gfMul]

/-- Settles O44: non-zero elements have inverses and can therefore be cancelled. -/
theorem fieldHasUniqueInverses : Obligations.FieldHasUniqueInverses := by
  constructor
  · intro a ha
    obtain ⟨b, hb⟩ := exists_gfMul_eq_one ha
    exact ⟨b, hb, fun c hc => gfMul_left_cancel ha (hc.trans hb.symm)⟩
  · intro a b hab
    by_cases ha : a = 0x00#8
    · exact .inl ha
    · exact .inr (gfMul_left_cancel ha (hab.trans (gfMul_zero a).symm))

end Sys2Proof.Machine
end

section
/-! SUPPORT. The linear transform (spec/42_linear_transform.md R120 to R123, R128). Both folds are one form with the coefficients LC[1]
to LC[15] on fifteen neighbouring bytes and the coefficient LC[0] = 1 on the byte before them or after them; so each step restores the
byte that the other dropped. They settle O47 and O48. -/

namespace Sys2Proof.Machine

/-! The linear form -/

theorem linearForm_nil : linearForm [] [] = 0x00#8 := rfl

theorem linearForm_cons (x c : Byte) (xs cs : List Byte) :
    linearForm (x :: xs) (c :: cs) = gfMul x c ^^^ linearForm xs cs := by
  rw [linearForm, List.zipWith_cons_cons, List.foldl_cons, BitVec.xor_comm, List.foldl_assoc]
  rfl

theorem linearForm_append {xs cs : List Byte} (h : xs.length = cs.length) (ys ds : List Byte) :
    linearForm (xs ++ ys) (cs ++ ds) = linearForm xs cs ^^^ linearForm ys ds := by
  induction xs generalizing cs with
  | nil =>
    obtain rfl : cs = [] := List.length_eq_zero_iff.mp h.symm
    simp [linearForm]
  | cons x xs ih =>
    cases cs with
    | nil => cases h
    | cons c cs =>
      rw [List.cons_append, List.cons_append, linearForm_cons, linearForm_cons, ih (Nat.succ.inj h), BitVec.xor_assoc]

theorem linearForm_xor {xs ys : List Byte} (h : xs.length = ys.length) (cs : List Byte) :
    linearForm (List.zipWith (· ^^^ ·) xs ys) cs = linearForm xs cs ^^^ linearForm ys cs := by
  induction xs generalizing ys cs with
  | nil =>
    obtain rfl : ys = [] := List.length_eq_zero_iff.mp h.symm
    simp [linearForm]
  | cons x xs ih =>
    cases ys with
    | nil => cases h
    | cons y ys =>
      cases cs with
      | nil => simp [linearForm]
      | cons c cs =>
        rw [List.zipWith_cons_cons, linearForm_cons, linearForm_cons, linearForm_cons, xor_gfMul, ih (Nat.succ.inj h)]
        ac_rfl

/-! The two folds by the fifteen coefficients they share -/

/-- The form with LC[1] to LC[15] on fifteen bytes. -/
def sharedFold (m : List Byte) : Byte := linearForm m Rom.LC.toList.tail

theorem linearForm_cons_LC (v : Byte) (m : List Byte) : linearForm (v :: m) Rom.LC.toList = v ^^^ sharedFold m := by
  have hLC : Rom.LC.toList = 0x01#8 :: Rom.LC.toList.tail := rfl
  rw [hLC, linearForm_cons, gfMul_one]
  rfl

theorem linearForm_append_LC {m : List Byte} (h : m.length = 15) (v : Byte) :
    linearForm (m ++ [v]) (Rom.LC.toList.tail ++ [Rom.LC[0]]) = sharedFold m ^^^ v := by
  have hlen : m.length = Rom.LC.toList.tail.length := h
  have hLC : Rom.LC[0] = 0x01#8 := rfl
  rw [linearForm_append hlen, hLC, linearForm_cons, gfMul_one, linearForm_nil, BitVec.xor_zero]
  rfl

theorem toList_eq_cons_tail {α : Type} {n : Nat} (x : Vector α (n + 1)) : x.toList = x[0] :: x.toList.tail := by
  have hne : x.toList ≠ [] := List.ne_nil_of_length_pos (by simp)
  rw [← Vector.getElem_toList (xs := x) (by simp), ← List.head_eq_getElem hne, List.cons_head_tail]

theorem toList_eq_dropLast_append {α : Type} {n : Nat} (x : Vector α (n + 1)) : x.toList = x.toList.dropLast ++ [x[n]] := by
  have hne : x.toList ≠ [] := List.ne_nil_of_length_pos (by simp)
  have hlast : x.toList.getLast hne = x[n] := by simp [List.getLast_eq_getElem]
  rw [← hlast, List.dropLast_append_getLast]

theorem lfold_eq (x : Block) : lfold x = x[0] ^^^ sharedFold x.toList.tail := by
  rw [lfold, toList_eq_cons_tail x, linearForm_cons_LC]
  rfl

theorem ilfold_eq (x : Block) : ilfold x = sharedFold x.toList.dropLast ^^^ x[15] := by
  rw [ilfold, toList_eq_dropLast_append x, linearForm_append_LC (by simp), ← toList_eq_dropLast_append x]

/-! Single steps undo each other -/

@[simp] theorem linInvStep_linStep (x : Block) : linInvStep (linStep x) = x := by
  refine toList_inj ?_
  have hlist : (linStep x).toList = x.toList.tail ++ [lfold x] := rfl
  have hfold : ilfold (linStep x) = x[0] := by
    rw [ilfold, hlist, linearForm_append_LC (by simp), lfold_eq, BitVec.xor_comm x[0], ← BitVec.xor_assoc, BitVec.xor_self,
      BitVec.zero_xor]
  rw [linInvStep, toList_ofList, hfold, hlist, List.dropLast_concat, ← toList_eq_cons_tail]

@[simp] theorem linStep_linInvStep (x : Block) : linStep (linInvStep x) = x := by
  refine toList_inj ?_
  have hlist : (linInvStep x).toList = ilfold x :: x.toList.dropLast := rfl
  have hfold : lfold (linInvStep x) = x[15] := by
    rw [lfold, hlist, linearForm_cons_LC, ilfold_eq, BitVec.xor_comm _ x[15], BitVec.xor_assoc, BitVec.xor_self,
      BitVec.xor_zero]
  rw [linStep, toList_ofList, hfold, hlist, List.tail_cons, ← toList_eq_dropLast_append]

@[simp] theorem linInv_lin (x : Block) : linInv (lin x) = x := Function.LeftInverse.iterate linInvStep_linStep 16 x

@[simp] theorem lin_linInv (x : Block) : lin (linInv x) = x := Function.LeftInverse.iterate linStep_linInvStep 16 x

/-- Settles O47: the steps undo each other, hence sixteen of them. -/
theorem linearTransformsAreInverse : Obligations.LinearTransformsAreInverse := fun x =>
  ⟨linInvStep_linStep x, linStep_linInvStep x, linInv_lin x, lin_linInv x⟩

/-! Linearity -/

theorem lfold_xorBlock (x y : Block) : lfold (xorBlock x y) = lfold x ^^^ lfold y :=
  linearForm_xor (by simp) _

theorem ilfold_xorBlock (x y : Block) : ilfold (xorBlock x y) = ilfold x ^^^ ilfold y :=
  linearForm_xor (by simp) _

theorem linStep_xorBlock (x y : Block) : linStep (xorBlock x y) = xorBlock (linStep x) (linStep y) := by
  refine toList_inj ?_
  simp [linStep, toList_xorBlock, lfold_xorBlock, List.zipWith_append]

/-- The inverse of a step that is linear is linear. -/
theorem linInvStep_xorBlock (x y : Block) : linInvStep (xorBlock x y) = xorBlock (linInvStep x) (linInvStep y) := by
  have h := congrArg linInvStep (linStep_xorBlock (linInvStep x) (linInvStep y))
  rwa [linInvStep_linStep, linStep_linInvStep, linStep_linInvStep, eq_comm] at h

/-- Steps that are linear over XOR are so when repeated. -/
theorem iterate_xorBlock {f : Block → Block} (hf : ∀ x y, f (xorBlock x y) = xorBlock (f x) (f y)) (n : Nat) (x y : Block) :
    f^[n] (xorBlock x y) = xorBlock (f^[n] x) (f^[n] y) := by
  induction n generalizing x y with
  | zero => rfl
  | succ n ih => rw [Function.iterate_succ_apply, hf, ih]; rfl

theorem lin_xorBlock (x y : Block) : lin (xorBlock x y) = xorBlock (lin x) (lin y) := iterate_xorBlock linStep_xorBlock 16 x y

theorem linInv_xorBlock (x y : Block) : linInv (xorBlock x y) = xorBlock (linInv x) (linInv y) :=
  iterate_xorBlock linInvStep_xorBlock 16 x y

@[simp] theorem getElem_zeroBlock (i : Nat) (hi : i < 16) : zeroBlock[i] = 0x00#8 := List.getElem_replicate (by simpa using hi)

theorem xorBlock_self (x : Block) : xorBlock x x = zeroBlock := Vector.ext fun i hi => by simp

/-- A function that is linear over XOR sends the zero block, which is its own XOR with itself, to the zero block. -/
theorem map_zeroBlock {f : Block → Block} (hf : ∀ x y, f (xorBlock x y) = xorBlock (f x) (f y)) : f zeroBlock = zeroBlock := by
  rw [← xorBlock_self zeroBlock, hf, xorBlock_self, xorBlock_self]

/-- Settles O48: linearity by the form's, and the coefficients in each fold, read off on the sixteen unit blocks. -/
theorem linearTransformsAreLinear : Obligations.LinearTransformsAreLinear := by
  refine ⟨fun x y => ⟨lfold_xorBlock x y, ilfold_xorBlock x y, lin_xorBlock x y, linInv_xorBlock x y⟩,
    ⟨by decide, by decide, map_zeroBlock lin_xorBlock, map_zeroBlock linInv_xorBlock⟩, ?_⟩
  decide

end Sys2Proof.Machine
end

section
/-! SUPPORT. The rounds and the block core (spec/44_block_core.md R160 to R163, R166). A round and an inverse round cancel across the
key additions between them, in either order; encryption and decryption are one chain of rounds along the keys in opposite directions, so
each undoes the other. They settle O49 and O50. -/

namespace Sys2Proof.Machine

@[simp] theorem fRoundInv_cancels_fRound (y k k' : Block) : fRoundInv (xorBlock (fRound y k) k') k' = xorBlock y k := by
  simp [fRoundInv, fRound]

@[simp] theorem fRound_cancels_fRoundInv (y k k' : Block) : fRound (xorBlock (fRoundInv y k) k') k' = xorBlock y k := by
  simp [fRoundInv, fRound]

/-- R160's second form: the substitution commutes with the reversal. -/
theorem fRound_eq (x k : Block) : fRound x k = rev (lin (rev (sub (xorBlock x k)))) := by
  rw [fRound, sub_rev]

/-- Settles O49: every part of a round has its inverse, and the key additions between cancel. -/
theorem roundsCancelAcrossKeys : Obligations.RoundsCancelAcrossKeys := ⟨fRoundInv_cancels_fRound, fRound_eq⟩

/-! The chain of rounds -/

/-- Rounds with all keys but the last, then the last key's addition: the form of R162 and R163. -/
def roundChain (f : Block → Block → Block) : List Block → Block → Block
  | [], x => x
  | [k], x => xorBlock x k
  | k :: k' :: ks, x => roundChain f (k' :: ks) (f x k)

theorem roundChain_append_singleton (f : Block → Block → Block) (ks : List Block) (k x : Block) :
    roundChain f (ks ++ [k]) x = xorBlock (ks.foldl f x) k := by
  induction ks generalizing x with
  | nil => rfl
  | cons k' ks ih =>
    rw [List.foldl_cons, ← ih]
    cases ks <;> rfl

/-- The chain of inverse rounds along the reversed keys undoes the chain of rounds. -/
theorem roundChain_reverse {f g : Block → Block → Block}
    (hgf : ∀ y k k', g (xorBlock (f y k) k') k' = xorBlock y k) (ks : List Block) (x : Block) :
    roundChain g ks.reverse (roundChain f ks x) = x := by
  induction ks generalizing x with
  | nil => rfl
  | cons k ks ih =>
    cases ks with
    | nil => exact xorBlock_cancel_right x k
    | cons k' ks =>
      have hrest := ih (f x k)
      rw [List.reverse_cons, roundChain_append_singleton] at hrest ⊢
      have hinner : ks.reverse.foldl g (roundChain f (k' :: ks) (f x k)) = xorBlock (f x k) k' := by
        rw [← xorBlock_cancel_right (ks.reverse.foldl g _) k', hrest]
      rw [List.reverse_cons, List.foldl_append, roundChain, hinner, List.foldl_cons, List.foldl_nil, hgf,
        xorBlock_cancel_right]

theorem enc_eq_roundChain (p : Block) (rk : RoundKeys) : enc p rk = roundChain fRound rk.toList p := by
  have hinit : rk.toList.dropLast = rk.toList.take 9 := by simp [List.dropLast_eq_take]
  rw [toList_eq_dropLast_append rk, roundChain_append_singleton, hinit]
  rfl

theorem dec_eq_roundChain (c : Block) (rk : RoundKeys) : dec c rk = roundChain fRoundInv rk.toList.reverse c := by
  rw [toList_eq_cons_tail rk, List.reverse_cons, roundChain_append_singleton]
  rfl

/-- Settles O50: the same chain law, along the keys and along their reverse. -/
theorem decryptAndEncryptAreInverse : Obligations.DecryptAndEncryptAreInverse := by
  intro p rk
  constructor
  · rw [dec_eq_roundChain, enc_eq_roundChain]
    exact roundChain_reverse fRoundInv_cancels_fRound rk.toList p
  · have h := roundChain_reverse fRound_cancels_fRoundInv rk.toList.reverse p
    rwa [List.reverse_reverse, ← enc_eq_roundChain, ← dec_eq_roundChain] at h

end Sys2Proof.Machine
end

section
/-! SUPPORT. The round constants and the key schedule (spec/43_round_constants_key_schedule.md R140, R141, R144, R145). The byte that
the first step of the linear transform puts last is moved to the front by the fifteen others; and each step of the key schedule is
injective, so a pair of round keys determines the pair before it. They settle O51 and O52. -/

namespace Sys2Proof.Machine

/-! The last byte of a round constant -/

theorem getElem_linStep_of_lt (x : Block) {i : Nat} (hi : i < 15) : (linStep x)[i] = x[i + 1] := by
  simp [linStep, List.getElem_append_left, hi]

theorem getElem_linStep_last (x : Block) : (linStep x)[15] = lfold x := by
  simp [linStep, List.getElem_append_right]

theorem getElem_iterate_linStep (x : Block) (n i : Nat) (h : n + i < 16) : (linStep^[n] x)[i] = x[n + i] := by
  induction n generalizing i with
  | zero => simp
  | succ n ih =>
    rw [Function.iterate_succ_apply', getElem_linStep_of_lt _ (by omega), ih (i + 1) (by omega)]
    congr 1
    omega

/-- The first step's fold comes to the front. -/
theorem getElem_lin_zero (x : Block) : (lin x)[0] = lfold x := by
  rw [lin, Function.iterate_succ_apply, getElem_iterate_linStep _ 15 0 (by decide), getElem_linStep_last]

theorem getElem_roundConstant_last (i : Byte) : (roundConstant i)[15] = i := by
  have hfirst : (rev (ofList (List.replicate 15 0x00#8 ++ [i]) rfl)).toList = i :: List.replicate 15 0x00#8 := by
    simp [toList_rev]
  have hzero : sharedFold (List.replicate 15 0x00#8) = 0x00#8 := by decide
  rw [roundConstant, getElem_rev, getElem_lin_zero, lfold, hfirst, linearForm_cons_LC, hzero, BitVec.xor_zero]

/-- Settles O51: the last byte by the first step's fold, the entries by the listing. -/
theorem roundConstantEndsInItsIndex : Obligations.RoundConstantEndsInItsIndex :=
  ⟨getElem_roundConstant_last, fun k hk => by simp [rcGen]⟩

/-! Round-key pairs -/

theorem xorBlock_right_inj {x y z : Block} : xorBlock x y = xorBlock x z ↔ y = z := by
  constructor
  · intro h
    rw [← xorBlock_cancel_left x y, h, xorBlock_cancel_left]
  · rintro rfl
    rfl

/-- A step keeps one half of the pair and adds a function of it to the other. -/
theorem feistelStep_injective (c : Block) (j : Nat) : Function.Injective (feistelStep c j) := by
  rintro ⟨x, y⟩ ⟨x', y'⟩ h
  unfold feistelStep at h
  split at h
  · obtain ⟨rfl, h⟩ := Prod.mk.inj h
    exact congrArg (Prod.mk x) (xorBlock_right_inj.mp h)
  · obtain ⟨h, rfl⟩ := Prod.mk.inj h
    exact congrArg (Prod.mk · y) (xorBlock_right_inj.mp h)

theorem foldl_injective {α β : Type} {f : α → β → α} (hf : ∀ b, Function.Injective fun a => f a b) (l : List β) :
    Function.Injective fun a => l.foldl f a := by
  induction l with
  | nil => exact Function.injective_id
  | cons b l ih => exact ih.comp (hf b)

theorem feistelGroup_injective (cs : RoundConstants) (i : Fin 4) : Function.Injective (feistelGroup cs i) :=
  foldl_injective (fun _ => feistelStep_injective _ _) _

/-- The halves of the master key. -/
def masterKeyHalves (mk : MasterKey) : Block × Block :=
  (ofList (mk.toList.take 16) (by simp), ofList (mk.toList.drop 16) (by simp))

theorem masterKeyHalves_append (mk : MasterKey) : (masterKeyHalves mk).1.toList ++ (masterKeyHalves mk).2.toList = mk.toList :=
  List.take_append_drop 16 mk.toList

theorem masterKeyHalves_injective : Function.Injective masterKeyHalves := by
  intro mk mk' h
  exact toList_inj (by rw [← masterKeyHalves_append, h, masterKeyHalves_append])

/-- The working pair after `m` groups. -/
def workingPair (cs : RoundConstants) (m : Nat) (mk : MasterKey) : Block × Block :=
  (([0, 1, 2, 3] : List (Fin 4)).take m).foldl (fun k i => feistelGroup cs i k) (masterKeyHalves mk)

theorem keySchedule_getElem_pair (mk : MasterKey) (cs : RoundConstants) {m : Nat} (hm : m < 5) :
    (keySchedule mk cs)[2 * m] = (workingPair cs m mk).1 ∧ (keySchedule mk cs)[2 * m + 1] = (workingPair cs m mk).2 := by
  interval_cases m <;> exact ⟨rfl, rfl⟩

theorem workingPair_injective (cs : RoundConstants) (m : Nat) : Function.Injective (workingPair cs m) :=
  (foldl_injective (feistelGroup_injective cs) _).comp masterKeyHalves_injective

/-- Settles O52: pair 0 is the master key, and every pair comes from it by injective steps. -/
theorem roundKeyPairsDetermineTheKey : Obligations.RoundKeyPairsDetermineTheKey := by
  intro mk mk' cs
  have hpair (m : Nat) (hm : m < 5) (h0 : (keySchedule mk cs)[2 * m] = (keySchedule mk' cs)[2 * m])
      (h1 : (keySchedule mk cs)[2 * m + 1] = (keySchedule mk' cs)[2 * m + 1]) : mk = mk' := by
    obtain ⟨hfst, hsnd⟩ := keySchedule_getElem_pair mk cs hm
    obtain ⟨hfst', hsnd'⟩ := keySchedule_getElem_pair mk' cs hm
    exact workingPair_injective cs m (Prod.ext (by rw [← hfst, h0, hfst']) (by rw [← hsnd, h1, hsnd']))
  refine ⟨masterKeyHalves_append mk, fun h => hpair 0 (by decide) (by rw [h]) (by rw [h]), fun m hm h0 h1 => ?_⟩
  rw [hpair m hm h0 h1]

end Sys2Proof.Machine
end

section
/-! SUPPORT. The byte-serial adder (spec/45_gamma_and_adder.md R174). The big-endian value is Mathlib's `Nat.ofDigits` in base 256; a
sequence without a leading zero byte is determined by its value, and both adders give such a sequence with the value of the sum. It
settles O54. -/

namespace Sys2Proof.Machine

/-! Big-endian values as digits -/

/-- The value of the bytes from the last to the first, as numbers in base 256. -/
def littleEndian (u : List Byte) : Nat := Nat.ofDigits 256 (u.map BitVec.toNat)

theorem littleEndian_cons (x : Byte) (u : List Byte) : littleEndian (x :: u) = x.toNat + 256 * littleEndian u := by
  rw [littleEndian, List.map_cons, Nat.ofDigits_cons]
  rfl

theorem be_eq_littleEndian_reverse (s : List Byte) : be s = littleEndian s.reverse := by
  induction s with
  | nil => rfl
  | cons x s ih =>
    rw [be, ih, List.reverse_cons, littleEndian, littleEndian, List.map_append, Nat.ofDigits_append]
    simp [Nat.add_comm, Nat.mul_comm]

theorem digits_be {s : List Byte} (h : s.head? ≠ some 0x00#8) : Nat.digits 256 (be s) = s.reverse.map BitVec.toNat := by
  rw [be_eq_littleEndian_reverse, littleEndian]
  refine Nat.digits_ofDigits 256 (by decide) _ ?_ ?_
  · intro d hd
    obtain ⟨x, -, rfl⟩ := List.mem_map.mp hd
    exact x.isLt
  · intro hne hlast
    cases s with
    | nil => exact hne rfl
    | cons x s =>
      have hx : x = 0x00#8 := BitVec.eq_of_toNat_eq (by simpa using hlast)
      exact h (by rw [hx]; rfl)

/-- Without a leading zero byte a sequence is determined by its value. -/
theorem eq_of_be_eq {s t : List Byte} (hs : s.head? ≠ some 0x00#8) (ht : t.head? ≠ some 0x00#8) (h : be s = be t) : s = t := by
  have hdigits : s.reverse.map BitVec.toNat = t.reverse.map BitVec.toNat := by rw [← digits_be hs, ← digits_be ht, h]
  exact List.reverse_injective (List.map_injective_iff.mpr (fun _ _ => BitVec.eq_of_toNat_eq) hdigits)

/-! The serial adder's digits -/

theorem littleEndian_drop (u : List Byte) (k : Nat) :
    littleEndian (u.drop k) = (u.getD k 0x00#8).toNat + 256 * littleEndian (u.drop (k + 1)) := by
  by_cases hk : k < u.length
  · rw [List.drop_eq_getElem_cons hk, littleEndian_cons, List.getD_eq_getElem _ _ hk]
  · have hnil : u.drop k = [] := List.drop_eq_nil_of_le (by omega)
    have hnil' : u.drop (k + 1) = [] := List.drop_eq_nil_of_le (by omega)
    rw [hnil, hnil', List.getD_eq_default _ _ (by omega)]
    rfl

/-- The digits from position `k` on hold what the operands hold from there on and the carry. -/
theorem be_serialDigits (x y : List Byte) (n k c : Nat) (hx : x.length ≤ k + n) (hy : y.length ≤ k + n) (hc : c ≤ 1) :
    be (serialDigits x y n k c) = littleEndian (x.reverse.drop k) + littleEndian (y.reverse.drop k) + c := by
  induction n generalizing k c with
  | zero =>
    rw [List.drop_eq_nil_of_le (by simpa using hx), List.drop_eq_nil_of_le (by simpa using hy)]
    interval_cases c <;> rfl
  | succ n ih =>
    have hxk := (x.reverse.getD k 0x00#8).isLt
    have hyk := (y.reverse.getD k 0x00#8).isLt
    rw [serialDigits, be_append, ih (k + 1) _ (by omega) (by omega) (by omega), littleEndian_drop x.reverse k,
      littleEndian_drop y.reverse k]
    simp only [be, BitVec.toNat_ofNat, List.length_singleton, List.length_nil]
    omega

theorem be_serialDigits_all (x y : List Byte) : be (serialDigits x y (max x.length y.length) 0 0) = be x + be y := by
  rw [be_serialDigits _ _ _ _ _ (by omega) (by omega) (by decide), be_eq_littleEndian_reverse, be_eq_littleEndian_reverse]
  rfl

/-! Stripping leading zero bytes -/

theorem be_dropWhile_zero (s : List Byte) : be (s.dropWhile (· == 0x00#8)) = be s := by
  induction s with
  | nil => rfl
  | cons x s ih =>
    rw [List.dropWhile_cons]
    split
    · next hx => rw [ih, be, eq_of_beq hx]; simp
    · rfl

theorem head?_dropWhile_zero (s : List Byte) : (s.dropWhile (· == 0x00#8)).head? ≠ some 0x00#8 := by
  intro h
  have hnot := List.head?_dropWhile_not (· == 0x00#8) s
  rw [h] at hnot
  exact absurd hnot (by decide)

/-- Both are the one sequence without a leading zero byte that holds the sum; for the zero sum that is none, and each gives one 00. -/
theorem addBe_eq_serialAdd (x y : List Byte) : addBe x y = serialAdd x y := by
  have hval : be ((serialDigits x y (max x.length y.length) 0 0).dropWhile (· == 0x00#8)) = be x + be y := by
    rw [be_dropWhile_zero, be_serialDigits_all]
  have hhead := head?_dropWhile_zero (serialDigits x y (max x.length y.length) 0 0)
  by_cases hsum : be x + be y = 0
  · have hnil : (serialDigits x y (max x.length y.length) 0 0).dropWhile (· == 0x00#8) = [] :=
      eq_of_be_eq hhead (by simp) (hval.trans hsum)
    rw [addBe_of_sum_zero hsum, serialAdd, hnil]
  · have heq : (serialDigits x y (max x.length y.length) 0 0).dropWhile (· == 0x00#8) = addBe x y :=
      eq_of_be_eq hhead (addBe_head?_ne_zero hsum) (by rw [hval, be_addBe])
    rw [serialAdd, heq]
    cases hadd : addBe x y with
    | nil => exact absurd (one_le_addBe_length x y) (by simp [hadd])
    | cons d l => rfl

theorem addBe_comm (x y : List Byte) : addBe x y = addBe y x := by
  rw [addBe_eq_beN, addBe_eq_beN, Nat.add_comm, Nat.max_comm]

/-- Settles O54: both adders give the one minimal sequence of the sum. -/
theorem adderEqualsByteSerialAdder : Obligations.AdderEqualsByteSerialAdder := fun x y =>
  ⟨addBe_eq_serialAdd x y, addBe_comm x y⟩

end Sys2Proof.Machine
end

section
/-! SUPPORT. The counter and gamma mode (spec/45_gamma_and_adder.md R170 to R172). The counter adds one modulo 2^128, so the counter of
chunk `n` is known; each chunk is XORed with the keystream block of its counter, and the laws of gamma are those of XOR, chunk by chunk.
They settle O55, O56 and O57. -/

namespace Sys2Proof.Machine

/-! The counter -/

theorem be_replicate_zero_append (n : Nat) (s : List Byte) : be (List.replicate n 0x00#8 ++ s) = be s := by
  induction n with
  | zero => rfl
  | succ n ih => simp [List.replicate_succ, be, ih]

theorem be_lt_block (c : Block) : be c.toList < 2 ^ 128 := by
  have h := be_lt c.toList
  rwa [Vector.length_toList, show (256 : Nat) ^ 16 = 2 ^ 128 by norm_num] at h

/-- R170 in one line: a 17-byte sum loses 2^128, a shorter one is below it. -/
theorem be_inc128 (c : Block) : be (inc128 c).toList = (be c.toList + 1) % 2 ^ 128 := by
  have hsum : be (addBe c.toList [0x01#8]) = be c.toList + 1 := be_addBe _ _
  have hpow : (256 : Nat) ^ 16 = 2 ^ 128 := by norm_num
  unfold inc128
  split
  · next h =>
    rw [toList_ofList, ← hsum]
    cases hd : addBe c.toList [0x01#8] with
    | nil => simp [hd] at h
    | cons d rest =>
      have hrest : rest.length = 16 := by simpa [hd] using h
      have hlt := be_lt rest
      rw [hrest, hpow] at hlt
      rw [be, List.tail_cons, hrest, hpow, Nat.mul_add_mod', Nat.mod_eq_of_lt hlt]
  · next h =>
    have hlen : (addBe c.toList [0x01#8]).length ≤ 16 := by
      have hle := addBe_length_le c.toList [0x01#8]
      simp at hle
      omega
    have hlt := (be_lt (addBe c.toList [0x01#8])).trans_le (Nat.pow_le_pow_right (by decide) hlen)
    rw [toList_ofList, be_replicate_zero_append, hsum]
    rw [hsum, hpow] at hlt
    exact (Nat.mod_eq_of_lt hlt).symm

/-- Settles O55: the counter's value by the sum's, in both lengths. -/
theorem counterStepAddsOneModulo : Obligations.CounterStepAddsOneModulo := be_inc128

theorem be_iterate_inc128 (n : Nat) (c : Block) : be (inc128^[n] c).toList = (be c.toList + n) % 2 ^ 128 := by
  induction n with
  | zero => exact (Nat.mod_eq_of_lt (be_lt_block c)).symm
  | succ n ih => rw [Function.iterate_succ_apply', be_inc128, ih, Nat.mod_add_mod, Nat.add_assoc]

theorem be_firstCounter (sync : Sync) : be (firstCounter sync).toList = be sync.toList * 2 ^ 64 := by
  have hzero : be (List.replicate 8 0x00#8) = 0 := rfl
  rw [firstCounter, toList_ofList, be_append, hzero, Nat.add_zero, List.length_replicate,
    show (256 : Nat) ^ 8 = 2 ^ 64 by norm_num]

/-! The keystream -/

/-- The block with which chunk `n` is XORed: its counter, encrypted (R171). -/
def keystream (sync : Sync) (rk : RoundKeys) (n : Nat) : Block := enc (inc128^[n] (firstCounter sync)) rk

theorem getElem?_gammaFrom (rk : RoundKeys) (ctr : Block) (data : List Block) (n : Nat) :
    (gammaFrom rk ctr data)[n]? = data[n]?.map (xorBlock (enc (inc128^[n] ctr) rk)) := by
  induction data generalizing ctr n with
  | nil => rfl
  | cons x data ih =>
    cases n with
    | zero => rfl
    | succ n => exact ih (inc128 ctr) n

/-- Chunk by chunk, gamma is XOR with the keystream. -/
theorem getElem?_gamma (data : List Block) (sync : Sync) (rk : RoundKeys) (n : Nat) :
    (gamma data sync rk)[n]? = data[n]?.map (xorBlock (keystream sync rk n)) :=
  getElem?_gammaFrom rk (firstCounter sync) data n

/-- Settles O56: the counter of chunk `n` is the first one, `n` times advanced. -/
theorem gammaChunkUsesItsCounter : Obligations.GammaChunkUsesItsCounter := by
  refine fun data sync rk => ⟨gamma_length data sync rk, fun n hn => ⟨inc128^[n] (firstCounter sync), ?_, ?_⟩⟩
  · rw [be_iterate_inc128, be_firstCounter]
  · rw [getElem?_gamma, List.getElem?_eq_getElem hn]
    rfl

/-! The laws of gamma -/

theorem gamma_gamma (data : List Block) (sync : Sync) (rk : RoundKeys) : gamma (gamma data sync rk) sync rk = data := by
  refine List.ext_getElem? fun n => ?_
  rw [getElem?_gamma, getElem?_gamma, Option.map_map]
  have hcancel : xorBlock (keystream sync rk n) ∘ xorBlock (keystream sync rk n) = id :=
    funext (xorBlock_cancel_left _)
  rw [hcancel, Option.map_id_fun, id]

theorem gamma_zipWith_xorBlock (d e : List Block) (sync : Sync) (rk : RoundKeys) :
    gamma (List.zipWith xorBlock d e) sync rk = List.zipWith xorBlock (gamma d sync rk) e := by
  refine List.ext_getElem? fun n => ?_
  rw [getElem?_gamma, List.getElem?_zipWith, List.getElem?_zipWith, getElem?_gamma]
  cases d[n]? <;> cases e[n]? <;> simp [xorBlock_assoc]

theorem zeroBlock_xorBlock (x : Block) : xorBlock zeroBlock x = x := Vector.ext fun i hi => by simp

/-- Any data are the XOR of zero data with them. -/
theorem zipWith_xorBlock_zeroBlock (d : List Block) : List.zipWith xorBlock (List.replicate d.length zeroBlock) d = d := by
  induction d with
  | nil => rfl
  | cons x d ih => rw [List.length_cons, List.replicate_succ, List.zipWith_cons_cons, zeroBlock_xorBlock, ih]

theorem take_gamma_append (d e : List Block) (sync : Sync) (rk : RoundKeys) :
    (gamma (d ++ e) sync rk).take d.length = gamma d sync rk := by
  refine List.ext_getElem? fun n => ?_
  rw [List.getElem?_take, getElem?_gamma, getElem?_gamma]
  split
  · next hn => rw [List.getElem?_append_left hn]
  · next hn => rw [List.getElem?_eq_none (Nat.not_lt.mp hn)]; rfl

/-- Settles O57: chunk by chunk, each law is one of XOR with the keystream. -/
theorem gammaLaws : Obligations.GammaLaws := fun d e sync rk =>
  ⟨gamma_gamma d sync rk,
    fun n h => by rw [getElem?_gamma, getElem?_gamma, h],
    fun _ => gamma_zipWith_xorBlock d e sync rk,
    by rw [← gamma_zipWith_xorBlock, zipWith_xorBlock_zeroBlock],
    take_gamma_append d e sync rk⟩

end Sys2Proof.Machine
end

section
/-! SUPPORT. When the doubling skips its XOR (spec/46_imito.md R195): the shifted last byte is the last byte's doubling, which is 00 for
00 and 80 alone, and the XOR with B128 always changes the last byte. It settles O59. -/

namespace Sys2Proof.Machine

theorem getElem_shiftLeft1_last (r : Block) : (shiftLeft1 r)[15] = r[15] <<< 1 := by
  simp [shiftLeft1]

theorem shiftLeft_one_eq_zero_iff : ∀ x : Byte, x <<< 1 = 0x00#8 ↔ x = 0x00#8 ∨ x = 0x80#8 := by
  decide

theorem xorBlock_B128_ne (x : Block) : xorBlock x Rom.B128 ≠ x := by
  intro h
  have hlast : (xorBlock x Rom.B128)[15] = x[15] := by rw [h]
  simp [Rom.B128] at hlast

theorem dbl_eq_shiftLeft1_iff (r : Block) : dbl r = shiftLeft1 r ↔ r[15] = 0x00#8 ∨ r[15] = 0x80#8 := by
  rw [← shiftLeft_one_eq_zero_iff, ← getElem_shiftLeft1_last]
  unfold dbl
  split
  · next h => simp [h]
  · next h => simp [h, xorBlock_B128_ne]

/-- Settles O59: the test of R190 by the last byte before the shift. -/
theorem doublingSkipsTheXorForTwoLastBytes : Obligations.DoublingSkipsTheXorForTwoLastBytes := by
  refine fun r => ⟨dbl_eq_shiftLeft1_iff r, fun h0 h80 => if_neg fun h => ?_⟩
  rw [getElem_shiftLeft1_last, shiftLeft_one_eq_zero_iff] at h
  exact h.elim h0 h80

end Sys2Proof.Machine
end
